-- ==== Sys2Proof/Word.lean ====
section
/-! DEFINITION. The one word type of the hardware: every register, memory cell, operand and address is
an unsigned value of 8 bits, 0 to 255 (00_scope.md rule R7, decisions D1 and D2, log entries 3 and 4). -/

namespace Sys2Proof

/-- A register value, a memory cell, an operand byte, the program counter or the flags register. -/
abbrev Byte := BitVec 8

end Sys2Proof
end

