-- ==== Sys2Proof/Config.lean ====
section
/-! DEFINITION. The implementation parameters of 00_scope.md rule R6, each a named constant, with the
value every rule of the spec uses. `PUSH_ID` and `POP_ID` are not the source's (decision D9, log
entry 9); `XLEN` = 8 with wraparound is decision D1 (log entry 3). One constant is free: the characters of
the output's line terminator (log entry 23). -/

namespace Sys2Proof

/-- `MEM_SIZE`: the number of memory cells. -/
abbrev Config.memSize : Nat := 256

/-- `CELL_BITS`: the width of one memory cell. -/
abbrev Config.cellBits : Nat := 8

/-- `NREGS`: the number of registers. -/
abbrev Config.nregs : Nat := 8

/-- `XLEN`: the register width (decision D1). -/
abbrev Config.xlen : Nat := 8

/-- `PC_BITS`: the program-counter width (decision D2). -/
abbrev Config.pcBits : Nat := 8

/-- `FL_BITS`: the flags-register width (decision D3). -/
abbrev Config.flBits : Nat := 8

/-- `SP_INDEX`: the index of the stack-pointer register (rule R22). -/
def Config.spIndex : Fin 8 := 7

/-- `STACK_START`: reset value of the stack pointer and underflow bound of POP. -/
def Config.stackStart : Byte := 0xF4

/-- `STACK_FLOOR`: the stack-pointer value at which PUSH reports overflow. -/
def Config.stackFloor : Byte := 0

/-- `PC_RESET`: the program counter after reset and the load address of the program. -/
def Config.pcReset : Byte := 0

/-- What a cell nothing has written reads as: memory is zero-initialized (rules R32, R33, R51). -/
def Config.unlistedByte : Byte := 0

/-- The reset value of `reg[0]` to `reg[6]`. DESIGN CHOICE of the spec (decision D4, log entry 6):
the source states none. -/
def Config.regReset : Byte := 0

/-- The reset value of `FL`. DESIGN CHOICE of the spec (decision D3, log entry 5). -/
def Config.flReset : Byte := 0

/-- The `opcode_id` reserved for halt in the non-ALU space (rules R81, R87). -/
def Config.hltId : BitVec 4 := 0b0001

/-- The ALU Dispatcher's id of ADD (rule R85). -/
def Config.addId : BitVec 4 := 0b0000

/-- The ALU Dispatcher's id of MUL (rule R85). -/
def Config.mulId : BitVec 4 := 0b0010

/-- The Instruction Dispatcher's id of LDI (rule R86). -/
def Config.ldiId : BitVec 4 := 0b0010

/-- The Instruction Dispatcher's id of PRN (rule R86). -/
def Config.prnId : BitVec 4 := 0b0111

/-- `PUSH_ID`. PRESUMED by the spec from general knowledge (decision D9, K2, log entry 9). -/
def Config.pushId : BitVec 4 := 0b0101

/-- `POP_ID`. PRESUMED by the spec from general knowledge (decision D9, K3, log entry 9). -/
def Config.popId : BitVec 4 := 0b0110

/-- The line terminator the host writes after each numeral of the output. The spec asks for one and does
not name its characters (rule R173, decision D16), so it is free: a claim about the output text holds for
every terminator (log entry 23). -/
opaque Config.lineTerminator : String

end Sys2Proof
end

