-- ==== Sys2Proof/Machine/Flags.lean ====
section
/-! DEFINITION. The arithmetic of the ALU and of the stack pointer, and the flags it computes: none. "The
hardware has no condition codes, carry, overflow or zero flag" (10_state.md rule R27; 41_alu.md rule R143),
so nothing here, and nothing that calls it, gives a new value of `FL`. Every result is an exact integer
narrowed by one function. -/

namespace Sys2Proof.Machine

/-- The overflow policy: the exact result is kept modulo 256 (rule R143, decision D1). -/
def narrow (exact : Nat) : Byte := BitVec.ofNat 8 (exact % 2 ^ Config.xlen)

/-- ADD: `(reg[a] + reg[b]) mod 256` (rule R141). -/
def addResult (x y : Byte) : Byte := narrow (x.toNat + y.toNat)

/-- MUL: `(reg[a] * reg[b]) mod 256`; the high 8 bits of the product are stored nowhere (rule R142). -/
def mulResult (x y : Byte) : Byte := narrow (x.toNat * y.toNat)

/-- The stack pointer after a PUSH that is not at the floor: `reg[7] - 1` (rule R161). -/
def pushPointer (sp : Byte) : Byte := BitVec.ofNat 8 (sp.toNat - 1)

/-- Whether a PUSH at this stack pointer reports StackOverflow (rules R161, R193). -/
def pushOverflows (sp : Byte) : Bool := decide (sp = Config.stackFloor)

/-- Whether a POP with this stack pointer before its increment reports StackUnderflow: the sum is
compared untruncated (rule R162, decision D14). -/
def popUnderflows (sp : Byte) : Bool := decide (sp.toNat + 1 > Config.stackStart.toNat)

/-- The stack pointer after a POP's increment: reset to `STACK_START` on underflow (rule R162). -/
def popPointer (sp : Byte) : Byte :=
  if popUnderflows sp then Config.stackStart else BitVec.ofNat 8 (sp.toNat + 1)

end Sys2Proof.Machine
end

