-- ==== Sys2Proof/Syntax.lean ====
section
/-! DEFINITION. The instructions of CA-CORE (30_encoding.md rules R80 to R91), one constructor per
mnemonic of spec/opcode_table.json. The table's nineteen rows are these seven constructors at the values
of the fields `oc` (operand_count) and `spc` (sets_pc) that the rules admit: HLT with three values of
`oc`, ADD and MUL with three of `oc` and two of `spc`, the other four with one byte each (log entry 19). -/

namespace Sys2Proof

/-- A legal value of the `operand_count` field: "0, 1, or 2" (rule R81); 3 is reserved (rule R88). -/
inductive OperandCount where
  | zero
  | one
  | two
  deriving DecidableEq, Repr

/-- The number an `operand_count` field stands for. -/
def OperandCount.toNat : OperandCount → Nat
  | .zero => 0
  | .one => 1
  | .two => 2

/-- One instruction: the opcode byte's meaning with its operand bytes. A register operand is the whole
operand byte, 0 to 255, not masked (rule R83, decision D25). -/
inductive Instr where
  /-- HLT. The byte's `oc` is kept, since 0x01, 0x41 and 0x81 all halt (rule R87). -/
  | hlt (oc : OperandCount)
  /-- LDI a, imm (rule R151). -/
  | ldi (a imm : Byte)
  /-- PRN a (rule R152). -/
  | prn (a : Byte)
  /-- PUSH a (rule R161). -/
  | push (a : Byte)
  /-- POP a (rule R162). -/
  | pop (a : Byte)
  /-- ADD a, b (rule R141); `oc` and `spc` steer only the program counter (rule R140). -/
  | add (oc : OperandCount) (spc : Bool) (a b : Byte)
  /-- MUL a, b (rule R142); `oc` and `spc` as for ADD. -/
  | mul (oc : OperandCount) (spc : Bool) (a b : Byte)
  deriving DecidableEq, Repr

/-- The `operand_count` field of the instruction's opcode byte (rules R85 to R87). -/
def Instr.oc : Instr → OperandCount
  | .hlt oc => oc
  | .ldi _ _ => .two
  | .prn _ => .one
  | .push _ => .one
  | .pop _ => .one
  | .add oc _ _ _ => oc
  | .mul oc _ _ _ => oc

/-- The `sets_pc` bit of the instruction's opcode byte. -/
def Instr.spc : Instr → Bool
  | .hlt _ => false
  | .ldi _ _ => false
  | .prn _ => false
  | .push _ => false
  | .pop _ => false
  | .add _ spc _ _ => spc
  | .mul _ spc _ _ => spc

/-- The operand bytes the instruction reads, `opa` first (rules R83 and R113): both for every ALU
instruction whatever `oc` says, none for HLT. -/
def Instr.operands : Instr → List Byte
  | .hlt _ => []
  | .ldi a imm => [a, imm]
  | .prn a => [a]
  | .push a => [a]
  | .pop a => [a]
  | .add _ _ a b => [a, b]
  | .mul _ _ a b => [a, b]

/-- The operand bytes that are register indices, in the order they are checked (rules R83 and R196). -/
def Instr.registerOperands : Instr → List Byte
  | .hlt _ => []
  | .ldi a _ => [a]
  | .prn a => [a]
  | .push a => [a]
  | .pop a => [a]
  | .add _ _ a b => [a, b]
  | .mul _ _ a b => [a, b]

end Sys2Proof
end

