-- ==== Sys2Proof/WellFormed.lean ====
section
/-! DEFINITION. Well-formed instructions in the sense of 10_state.md rule R23: every register index is in
0 to 7. An instruction that is not well-formed still decodes and still has a meaning: executing it raises
OutOfBounds (rules R23, R192), so decode, encode and step never ask for this check. -/

namespace Sys2Proof

/-- The check of one register index: "Index must be in [0, 7]" (rule R23). -/
def validRegister (i : Byte) : Bool := decide (i.toNat < Config.nregs)

/-- Every register index the instruction names is in 0 to 7. -/
def Instr.wellFormed (i : Instr) : Bool := i.registerOperands.all validRegister

end Sys2Proof
end

