-- ==== Sys2Proof/Decode.lean ====
section
/-! DEFINITION. The decoder and the encoder of 30_encoding.md. `decodeOpcode` is the decode function of
rule R84 (total on the 256 bytes, each rejection by name); `decode` reads the operand bytes after it
(rule R113); `encode` is written from the tables of rules R81, R85, R86 and R87. -/

namespace Sys2Proof

/-- Why a byte string is no instruction. The first five are the causes of UnsupportedOpcode (rule R191);
the last two are bytes that do not exist in memory, the cause of OutOfBounds (rule R192). -/
inductive DecodeError where
  /-- `operand_count` = 3, reserved (rule R88, decision D5). -/
  | operandCountThree
  /-- The ALU Dispatcher has no such id (rules R85, R144). -/
  | unregisteredAluId
  /-- `sets_pc` = 1 with `is_alu_op` = 0 (rule R89, decision D6). -/
  | setsPcClass
  /-- The Instruction Dispatcher has no such id (rule R86). -/
  | unregisteredId
  /-- A registered id with a count its entry is not defined for (rule R90, decision D8). -/
  | wrongOperandCount
  /-- No opcode byte was given. -/
  | noOpcode
  /-- An operand byte the instruction reads was not given. -/
  | missingOperand
  deriving DecidableEq, Repr

/-- `oc = IR[7:6]` (rule R81). -/
def ocField (ir : Byte) : BitVec 2 := ir.extractLsb' 6 2

/-- `alu = IR[5]` (rule R81). -/
def aluField (ir : Byte) : Bool := ir.getLsbD 5

/-- `spc = IR[4]` (rule R81). -/
def spcField (ir : Byte) : Bool := ir.getLsbD 4

/-- `id = IR[3:0]` (rule R81). -/
def idField (ir : Byte) : BitVec 4 := ir.extractLsb' 0 4

/-- The legal operand count a two-bit field stands for; 3 stands for none (rules R81, R88). -/
def operandCount? (f : BitVec 2) : Option OperandCount :=
  if f = 0 then some .zero
  else if f = 1 then some .one
  else if f = 2 then some .two
  else none

/-- The two-bit field of an operand count. -/
def OperandCount.field : OperandCount → BitVec 2
  | .zero => 0
  | .one => 1
  | .two => 2

/-- What the decode function makes of an opcode byte alone: the instruction without its operand bytes. -/
inductive Opcode where
  | hlt (oc : OperandCount)
  | ldi
  | prn
  | push
  | pop
  | add (oc : OperandCount) (spc : Bool)
  | mul (oc : OperandCount) (spc : Bool)
  deriving DecidableEq, Repr

/-- How many operand bytes the decoded instruction reads: two for every ALU instruction and LDI, one for
PRN, PUSH and POP, none for HLT (rule R113, decisions D10 and D11). -/
def Opcode.operandBytes : Opcode → Nat
  | .hlt _ => 0
  | .ldi => 2
  | .prn => 1
  | .push => 1
  | .pop => 1
  | .add _ _ => 2
  | .mul _ _ => 2

/-- An Instruction Dispatcher entry, defined for one operand count only (rules R86, R90). -/
def dispatchEntry (op : Opcode) (want oc : OperandCount) : Except DecodeError Opcode :=
  if oc = want then .ok op else .error .wrongOperandCount

/-- The decode function of rule R84, its tests in that rule's order (steps 0 to 4). -/
def decodeOpcode (ir : Byte) : Except DecodeError Opcode :=
  match operandCount? (ocField ir) with
  | none => .error .operandCountThree
  | some oc =>
    if aluField ir then
      if idField ir = Config.addId then .ok (.add oc (spcField ir))
      else if idField ir = Config.mulId then .ok (.mul oc (spcField ir))
      else .error .unregisteredAluId
    else if spcField ir then .error .setsPcClass
    else if idField ir = Config.hltId then .ok (.hlt oc)
    else if idField ir = Config.ldiId then dispatchEntry .ldi .two oc
    else if idField ir = Config.prnId then dispatchEntry .prn .one oc
    else if idField ir = Config.pushId then dispatchEntry .push .one oc
    else if idField ir = Config.popId then dispatchEntry .pop .one oc
    else .error .unregisteredId

/-- The instruction of an opcode and the bytes after it: only the bytes the instruction uses are taken,
`opa` before `opb` (rule R113); bytes after them are ignored. -/
def withOperands : Opcode → List Byte → Except DecodeError Instr
  | .hlt oc, _ => .ok (.hlt oc)
  | .ldi, a :: imm :: _ => .ok (.ldi a imm)
  | .prn, a :: _ => .ok (.prn a)
  | .push, a :: _ => .ok (.push a)
  | .pop, a :: _ => .ok (.pop a)
  | .add oc spc, a :: b :: _ => .ok (.add oc spc a b)
  | .mul oc spc, a :: b :: _ => .ok (.mul oc spc a b)
  | _, _ => .error .missingOperand

/-- Decode the bytes at the program counter: the opcode byte first, then its operands (rules R84, R113).
The bytes after the instruction are not returned: the next instruction starts `oc + 1` bytes on (rule R25),
which for an ALU alias lies inside the bytes this one read (rule R140). -/
def decode : List Byte → Except DecodeError Instr
  | [] => .error .noOpcode
  | ir :: rest =>
    match decodeOpcode ir with
    | .error e => .error e
    | .ok op => withOperands op rest

/-- An opcode byte put together from its four fields, `oc oc alu spc id id id id` (rule R81). -/
def opcodeByte (oc : BitVec 2) (alu spc : Bool) (id : BitVec 4) : Byte :=
  oc ++ BitVec.ofBool alu ++ BitVec.ofBool spc ++ id

/-- The opcode byte of an instruction, from the tables of rules R85, R86 and R87. -/
def Instr.opcodeByte : Instr → Byte
  | .hlt oc => Sys2Proof.opcodeByte oc.field false false Config.hltId
  | .ldi _ _ => Sys2Proof.opcodeByte 2 false false Config.ldiId
  | .prn _ => Sys2Proof.opcodeByte 1 false false Config.prnId
  | .push _ => Sys2Proof.opcodeByte 1 false false Config.pushId
  | .pop _ => Sys2Proof.opcodeByte 1 false false Config.popId
  | .add oc spc _ _ => Sys2Proof.opcodeByte oc.field true spc Config.addId
  | .mul oc spc _ _ => Sys2Proof.opcodeByte oc.field true spc Config.mulId

/-- The bytes of an instruction, lowest address first (rules R54, R80): the opcode byte and the operand
bytes the instruction reads. -/
def encode (i : Instr) : List Byte := i.opcodeByte :: i.operands

/-- The encoding an assembler emits (rules R91, R93): `oc` 0 for HLT, `oc` 2 and `spc` 0 for ADD and MUL. -/
def Instr.canonical : Instr → Instr
  | .hlt _ => .hlt .zero
  | .add _ _ a b => .add .two false a b
  | .mul _ _ a b => .mul .two false a b
  | .ldi a imm => .ldi a imm
  | .prn a => .prn a
  | .push a => .push a
  | .pop a => .pop a

/-- The longest instruction, in bytes (rule R80). -/
def maxInstrBytes : Nat := 3

/-- Byte `k` of an instruction whose bits are `w`, the opcode byte being bits 7 to 0; every bit from
`nbits` on is 0. -/
def tableByte (nbits w k : Nat) : Byte := BitVec.ofNat 8 ((w % 2 ^ nbits) / 2 ^ (8 * k))

/-- The bytes an instruction given as a number is stored in, lowest address first. -/
def tableBytes (nbits w : Nat) : List Byte := (List.range maxInstrBytes).map (tableByte nbits w)

/-- What the decoder reads from an instruction whose bits are `w`, numbered as spec/opcode_table.json
numbers them, with operand bytes of zeros above `nbits`. -/
def decodeTableWord (nbits w : Nat) : Option Instr :=
  match decode (tableBytes nbits w) with
  | .ok i => some i
  | .error _ => none

end Sys2Proof
end

