-- ==== Sys2Proof/Machine/State.lean ====
section
/-! DEFINITION. The complete architectural state of CA-CORE (10_state.md rule R20: "Nothing else is
state"), its value after reset (rule R33), the canonical form of memory, and the two ways a step could
stop without a next state, neither of which this hardware ever takes. -/

namespace Sys2Proof.Machine

/-- `RUN`: the state of the loop (rule R29). -/
inductive RunState where
  | running
  | halted
  deriving DecidableEq, Repr

/-- The fatal errors (60_exceptions.md rules R190 to R192): "terminates the run". -/
inductive FatalError where
  | unsupportedOpcode
  | outOfBounds
  deriving DecidableEq, Repr

/-- The diagnostic events (rules R190, R193, R194): reported while the run continues. -/
inductive Diagnostic where
  | stackOverflow
  | stackUnderflow
  deriving DecidableEq, Repr

/-- Memory as the list of its cells that do not read as `Config.unlistedByte`. -/
abbrev Memory := List Host.Cell

/-- The canonical form: addresses strictly rising, every address below 256, no entry equal to what an
unlisted address reads as. Equal memories are then equal lists. -/
abbrev Memory.wf (m : Memory) : Prop :=
  m.Pairwise (fun c d => c.1 < d.1) ∧ ∀ c ∈ m, c.1 < Config.memSize ∧ c.2 ≠ Config.unlistedByte

/-- The state tuple of rule R20. -/
structure State where
  /-- `mem`: 256 cells of 8 bits, program and data (rule R32). -/
  mem : Memory
  /-- `reg[0]` to `reg[7]`; `reg[7]` is the stack pointer (rules R21, R22). -/
  regs : Vector Byte 8
  /-- `pc`: the address of the next opcode byte (rule R24). -/
  pc : Byte
  /-- `FL`: reserved, read and written by nothing (rule R27). -/
  fl : Byte
  /-- `RUN` (rule R29). -/
  run : RunState
  /-- `ERR`: the fatal error that ended the run, `none` for the spec's `None` (rule R29). -/
  err : Option FatalError
  /-- `OUT`: every value PRN has emitted, oldest first (rule R30). -/
  out : List Byte
  /-- `DIAG`: every stack diagnostic, oldest first (rule R30). -/
  diag : List Diagnostic
  deriving DecidableEq, Repr

/-- The state right after reset and before any load (rules R33, R220). -/
def State.reset : State where
  mem := []
  regs := (Vector.replicate 8 Config.regReset).set Config.spIndex Config.stackStart
  pc := Config.pcReset
  fl := Config.flReset
  run := .running
  err := none
  out := []
  diag := []

/-- The reasons a step could stop with a fault. There are none: both fatal errors have an entry the spec
describes (rule R197) and are taken as next states, and every other case of every instruction has an
effect (log entry 1). An empty type can hide no behaviour, so this is safe. -/
inductive Fault where
  deriving DecidableEq, Repr

/-- The reasons an instruction could be refused. -/
inductive Refusal where
  /-- An instruction with no meaning yet, named by its mnemonic. Only an arm of `exec` may raise it, and
  none does: every instruction has its meaning. Safe: a refusal proves nothing about a next state. -/
  | notModelled (mnemonic : String)
  deriving DecidableEq, Repr

end Sys2Proof.Machine
end

