-- ==== Sys2Proof/Machine/Ops.lean ====
section
/-! DEFINITION. The named operations every rule is written with (00_scope.md rule R8): memory, registers,
the two event streams, halting, taking a fatal error (60_exceptions.md rule R197), the program-counter
update (10_state.md rules R25, R26) and the fetch (40_sequencer.md rules R111 to R113). -/

namespace Sys2Proof.Machine

/-! ### Memory (20_memory.md rules R50 to R52) -/

/-- The byte at an address: the one listed, or what an unlisted address reads as (rule R51). -/
def Memory.lookup : Memory → Nat → Byte
  | [], _ => Config.unlistedByte
  | c :: m, a => if c.1 = a then c.2 else Memory.lookup m a

/-- Memory without an entry for `a`. -/
def Memory.erase (m : Memory) (a : Nat) : Memory := m.filter (fun c => c.1 != a)

/-- Put an entry before the first one of a higher address. -/
def Memory.insert : Memory → Nat → Byte → Memory
  | [], a, v => [(a, v)]
  | c :: m, a, v => if a < c.1 then (a, v) :: c :: m else c :: Memory.insert m a v

/-- Replace the byte at `a`, keeping the canonical form: the value an unlisted address reads as is not
listed. -/
def Memory.store (m : Memory) (a : Nat) (v : Byte) : Memory :=
  if v = Config.unlistedByte then Memory.erase m a else Memory.insert (Memory.erase m a) a v

/-- `MemRead(addr)`: an address above 255 raises OutOfBounds and is never reduced (rules R8, R52). -/
def memRead (s : State) (addr : Nat) : Except FatalError Byte :=
  if addr < Config.memSize then .ok (Memory.lookup s.mem addr) else .error .outOfBounds

/-- `MemWrite(addr, v)` (rules R8, R52). -/
def memWrite (s : State) (addr : Nat) (v : Byte) : Except FatalError State :=
  if addr < Config.memSize then .ok { s with mem := Memory.store s.mem addr v } else .error .outOfBounds

/-! ### Registers (10_state.md rules R21, R22) -/

/-- `reg[r]`, for an index already checked. -/
def State.reg (s : State) (r : Fin 8) : Byte := s.regs[r]

/-- `reg[r] <- v`, for an index already checked; register 7 has no protection (rule R22). -/
def State.setReg (s : State) (r : Fin 8) (v : Byte) : State := { s with regs := s.regs.set r v }

/-- `SP`, the alias of `reg[7]` (rule R22). -/
def State.sp (s : State) : Byte := s.reg Config.spIndex

/-! ### The event streams (rule R30) -/

/-- `emit OUT(v)` (rule R173). -/
def emitOut (v : Byte) (s : State) : State := { s with out := s.out ++ [v] }

/-- `emit DIAG(k)` (rule R174). -/
def emitDiag (k : Diagnostic) (s : State) : State := { s with diag := s.diag ++ [k] }

/-! ### Ending the run -/

/-- `halt`: `RUN <- Halted` with `ERR` unchanged (rules R8, R117). -/
def halt (s : State) : State := { s with run := .halted }

/-- Taking a fatal error: `RUN <- Halted`, `ERR <- E`, everything else unchanged. No state is saved, no
mode changes and control goes nowhere (rule R197); there is no return from it, only a reset (rule R199). -/
def raise (e : FatalError) (s : State) : State := { s with run := .halted, err := some e }

/-- The end of an instruction that may raise: a fatal error is taken on the state from BEFORE the
instruction, so it is precise, whatever the instruction had computed (rule R197, decision D12). -/
def conclude (s : State) (r : Except FatalError State) : Host.Outcome State Fault Refusal :=
  match r with
  | .ok s' => .next s'
  | .error e => .next (raise e s)

/-! ### The program counter (rules R25, R26) -/

/-- The next value before the wrap, an untruncated integer (rule R25). -/
def nextPc (oc : OperandCount) (spc : Bool) (pc : Byte) : Nat :=
  if spc then pc.toNat else pc.toNat + oc.toNat + 1

/-- The wrap: 256 or more gives 0, compared before truncation (rule R26, decision D2). -/
def wrapPc (next : Nat) : Byte :=
  if next ≥ Config.memSize then 0 else BitVec.ofNat 8 next

/-- Items 6 and 7 of the step (rule R110). -/
def advance (oc : OperandCount) (spc : Bool) (s : State) : State :=
  { s with pc := wrapPc (nextPc oc spc s.pc) }

/-! ### Fetch (40_sequencer.md rules R111 to R113) -/

/-- The bytes at an address that exist in memory, for as many as an instruction may be long. An address
above 255 gives no byte; it does not wrap (rule R52, decision D10). -/
def bytesAt (m : Memory) (a : Nat) : List Byte :=
  ((List.range maxInstrBytes).map (a + ·)).filterMap
    (fun x => if x < Config.memSize then some (Memory.lookup m x) else none)

/-- The fatal error a decoding error is (rules R191, R192): a byte that does not exist is OutOfBounds,
every other cause UnsupportedOpcode. -/
def fatalOf : DecodeError → FatalError
  | .operandCountThree => .unsupportedOpcode
  | .unregisteredAluId => .unsupportedOpcode
  | .setsPcClass => .unsupportedOpcode
  | .unregisteredId => .unsupportedOpcode
  | .wrongOperandCount => .unsupportedOpcode
  | .noOpcode => .outOfBounds
  | .missingOperand => .outOfBounds

/-- Items 1, 2 and 4 of the step (rule R110): the opcode byte at `pc` is decoded first, so its error
comes before an operand address out of range (rule R196). Reading has no effect (rule R51), so looking at
bytes the instruction does not use changes nothing (log entry 10). -/
def fetch (s : State) : Except FatalError Instr :=
  match decode (bytesAt s.mem s.pc.toNat) with
  | .ok i => .ok i
  | .error e => .error (fatalOf e)

/-! ### Placing bytes in memory from outside the core -/

/-- Write bytes upward from an address; bytes for an address above 255 are not placed. -/
def placeBytes (m : Memory) : Nat → List Byte → Memory
  | _, [] => m
  | a, v :: vs =>
    placeBytes (if a < Config.memSize then Memory.store m a v else m) (a + 1) vs

/-- The state whose next step fetches the given bytes at its program counter: the bytes placed there,
and the loop Running without an error, since a Halted core fetches nothing (log entry 16). -/
def withBytesAtPc (s : State) (bytes : List Byte) : State :=
  { s with mem := placeBytes s.mem s.pc.toNat bytes, run := .running, err := none }

end Sys2Proof.Machine
end

