-- ==== Sys2Proof/Machine/Operands.lean ====
section
/-! DEFINITION. The operand forms (30_encoding.md rule R83): a register index, which is the whole operand
byte and is checked before any write (rules R23, R196, decision D25), and the 8-bit immediate, which is
used as it stands (rule R151). There is no memory operand (20_memory.md rule R53). -/

namespace Sys2Proof.Machine

/-- A register operand: 0 to 7 selects a register, 8 to 255 raises OutOfBounds; no masking (rule R83). -/
def registerOperand (i : Byte) : Except FatalError (Fin 8) :=
  if h : i.toNat < 8 then .ok ⟨i.toNat, h⟩ else .error .outOfBounds

/-- An immediate operand: the operand byte unchanged, never extended, scaled or shifted (rules R82, R151). -/
def immediateOperand (i : Byte) : Byte := i

/-- An instruction over one register operand: the index is checked, then the rest runs. -/
def withRegister (a : Byte) (k : Fin 8 → Except FatalError State) : Except FatalError State :=
  match registerOperand a with
  | .ok r => k r
  | .error e => .error e

/-- An instruction over two register operands: `opa` is checked, then `opb`, then the rest runs
(rule R140). -/
def withRegisters (a b : Byte) (k : Fin 8 → Fin 8 → Except FatalError State) :
    Except FatalError State :=
  withRegister a fun ra => withRegister b fun rb => k ra rb

end Sys2Proof.Machine
end

