-- ==== Sys2Proof/Machine/Alu.lean ====
section
/-! DEFINITION. The ALU Dispatcher's instructions ADD and MUL (41_alu.md rules R140 to R144). -/

namespace Sys2Proof.Machine

/-- An ALU operation: both indices are checked, both sources are read before the write, the result goes
to register `a`, and the program counter follows the opcode byte's `oc` and `spc` (rule R140, decision D7). -/
def aluOperation (f : Byte → Byte → Byte) (oc : OperandCount) (spc : Bool) (a b : Byte) (s : State) :
    Except FatalError State :=
  withRegisters a b fun ra rb =>
    .ok (advance oc spc (s.setReg ra (f (s.reg ra) (s.reg rb))))

/-- ADD a, b (rule R141). -/
def execAdd (oc : OperandCount) (spc : Bool) (a b : Byte) (s : State) :
    Host.Outcome State Fault Refusal :=
  conclude s (aluOperation addResult oc spc a b s)

/-- MUL a, b (rule R142). -/
def execMul (oc : OperandCount) (spc : Bool) (a b : Byte) (s : State) :
    Host.Outcome State Fault Refusal :=
  conclude s (aluOperation mulResult oc spc a b s)

end Sys2Proof.Machine
end

