-- ==== Sys2Proof/Machine/Control.lean ====
section
/-! DEFINITION. HLT (40_sequencer.md rule R117), the only control instruction: there is no branch, jump,
call or return (rule R115) and no instruction that sets the program counter (rule R118). -/

namespace Sys2Proof.Machine

/-- HLT: `RUN <- Halted`, nothing else changes, `pc` keeps the address of the HLT byte. It cannot fault
(rule R117). The operand count of the byte plays no part (rule R87, decision D22). -/
def execHlt (_oc : OperandCount) (s : State) : Host.Outcome State Fault Refusal :=
  .next (halt s)

end Sys2Proof.Machine
end

