-- ==== Sys2Proof/Machine/Data.lean ====
section
/-! DEFINITION. The Instruction Dispatcher's instructions LDI and PRN (42_dispatch.md rules R150 to R152). -/

namespace Sys2Proof.Machine

/-- LDI a, imm: `reg[a] <- imm`, then `pc <- pc + 3` with the wrap (rule R151). -/
def execLdi (a imm : Byte) (s : State) : Host.Outcome State Fault Refusal :=
  conclude s <| withRegister a fun ra =>
    .ok (advance .two false (s.setReg ra (immediateOperand imm)))

/-- PRN a: `emit OUT(reg[a])`, then `pc <- pc + 2` with the wrap (rule R152). -/
def execPrn (a : Byte) (s : State) : Host.Outcome State Fault Refusal :=
  conclude s <| withRegister a fun ra =>
    .ok (advance .one false (emitOut (s.reg ra) s))

end Sys2Proof.Machine
end

