-- ==== Sys2Proof/Machine/Stack.lean ====
section
/-! DEFINITION. The stack operations PUSH and POP (43_stack.md rules R160 to R164). The stack is full
descending: `SP` holds the address of the byte pushed last. -/

namespace Sys2Proof.Machine

/-- The write of a PUSH that does not overflow: `SP` is decremented first, and `reg[a]` is read after
that, so PUSH R7 stores the decremented pointer (rule R161, decision D26). -/
def pushByte (ra : Fin 8) (s : State) : Except FatalError State :=
  let s' := s.setReg Config.spIndex (pushPointer s.sp)
  memWrite s' s'.sp.toNat (s'.reg ra)

/-- PUSH a: the index is checked before the guard; at `SP` = 0 only the diagnostic is emitted; `pc`
advances in both branches (rules R161, R193, decision D13). -/
def execPush (a : Byte) (s : State) : Host.Outcome State Fault Refusal :=
  conclude s <| withRegister a fun ra =>
    if pushOverflows s.sp then .ok (advance .one false (emitDiag .stackOverflow s))
    else
      match pushByte ra s with
      | .ok s' => .ok (advance .one false s')
      | .error e => .error e

/-- The increment of a POP, applied to the register file after the popped byte was written (rules R162,
R194, decision D26). -/
def popIncrement (s : State) : State :=
  if popUnderflows s.sp then
    emitDiag .stackUnderflow (s.setReg Config.spIndex (popPointer s.sp))
  else s.setReg Config.spIndex (popPointer s.sp)

/-- POP a: read at the `SP` before the increment, write `reg[a]`, then increment `SP` (rule R162). -/
def execPop (a : Byte) (s : State) : Host.Outcome State Fault Refusal :=
  conclude s <| withRegister a fun ra =>
    match memRead s s.sp.toNat with
    | .ok v => .ok (advance .one false (popIncrement (s.setReg ra v)))
    | .error e => .error e

end Sys2Proof.Machine
end

