-- ==== Sys2Proof/Machine/Dispatch.lean ====
section
/-! DEFINITION. One arm per constructor of Instr, each one call of the instruction's meaning. -/

namespace Sys2Proof.Machine

def exec (i : Instr) (s : State) : Host.Outcome State Fault Refusal :=
  match i with
  | .hlt oc => Sys2Proof.Machine.execHlt oc s
  | .ldi a imm => Sys2Proof.Machine.execLdi a imm s
  | .prn a => Sys2Proof.Machine.execPrn a s
  | .push a => Sys2Proof.Machine.execPush a s
  | .pop a => Sys2Proof.Machine.execPop a s
  | .add oc spc a b => Sys2Proof.Machine.execAdd oc spc a b s
  | .mul oc spc a b => Sys2Proof.Machine.execMul oc spc a b s

end Sys2Proof.Machine
end

