-- ==== Sys2Proof/Machine/Step.lean ====
section
/-! DEFINITION. One step of CA-CORE (40_sequencer.md rule R110) as the host requests it
(50_interfaces.md rule R176), and the placing of one instruction for the next fetch. -/

namespace Sys2Proof.Machine

/-- One step request: "performs the step of 40_sequencer.md rule R110 if RUN = Running and nothing if
RUN = Halted" (rule R176; log entry 2). -/
def step (s : State) : Host.Outcome State Fault Refusal :=
  match s.run with
  | .halted => .next s
  | .running =>
    match fetch s with
    | .ok i => exec i s
    | .error e => .next (raise e s)

/-- `s` with the instruction whose bits are `w` (numbered as spec/opcode_table.json numbers them, bits
from `nbits` on zero) stored where the next step fetches (log entry 16). -/
def State.withFetchWord (s : State) (nbits w : Nat) : State := withBytesAtPc s (tableBytes nbits w)

end Sys2Proof.Machine
end

