-- ==== Sys2Proof/Machine/HostInterface.lean ====
section
/-! DEFINITION. The interfaces at the boundary of the core other than the step (50_interfaces.md rule
R170): load (R172, R221), status (R175) and output (R173), with the numeric codes of 10_state.md rule R29
and 60_exceptions.md rule R190. Reset is `State.reset` (rule R220): it discards the whole state. -/

namespace Sys2Proof.Machine

/-- The load interface: byte `k` of the image goes to address `k`; nothing but `mem` changes. An image
longer than memory fails with OutOfBounds and no run starts (rule R172, decision D20); the failed load
writes nothing (log entry 16). It happens after reset and before the first step. -/
def load (image : List Byte) (s : State) : State :=
  if image.length ≤ Config.memSize then { s with mem := placeBytes s.mem Config.pcReset.toNat image }
  else raise .outOfBounds s

/-- The launch state of a program image (rule R221): reset, then load. -/
def launch (image : List Byte) : State := load image State.reset

/-- The status interface: `RUN` and `ERR`, readable between steps; reading changes nothing (rule R175). -/
def State.status (s : State) : RunState × Option FatalError := (s.run, s.err)

/-- `RUN`: Running = 0, Halted = 1 (rule R29, decision D17). -/
def RunState.code : RunState → Nat
  | .running => 0
  | .halted => 1

/-- `ERR`: None = 0, UnsupportedOpcode = 1, OutOfBounds = 2 (rule R29, decision D17). -/
def errCode : Option FatalError → Nat
  | none => 0
  | some .unsupportedOpcode => 1
  | some .outOfBounds => 2

/-- `DIAG` events: StackOverflow = 1, StackUnderflow = 2 (rule R190, decision D17). -/
def Diagnostic.code : Diagnostic → Nat
  | .stackOverflow => 1
  | .stackUnderflow => 2

/-- The host's rendering of one `OUT` value: the unsigned decimal numeral, no sign, no leading zeros
(rule R173, decision D16). -/
def outputNumeral (v : Byte) : String := toString v.toNat

/-- The host's rendering of one `OUT` value as a line: the numeral, then one line terminator (rule R173,
decision D16; the terminator's characters are free, log entry 23). -/
def outputLine (v : Byte) : String := outputNumeral v ++ Config.lineTerminator

/-- The text of a sequence of `OUT` values: the concatenation of their lines, in order (rule R173). -/
def renderOutput : List Byte → String
  | [] => ""
  | v :: vs => outputLine v ++ renderOutput vs

/-- The output of the run so far, as the host renders it. Diagnostics are not part of it (rules R173 and
R174). -/
def State.outputText (s : State) : String := renderOutput s.out

end Sys2Proof.Machine
end

