-- ==== Sys2Proof/Safety.lean ====
section
/-! DEFINITION. The terms claims about a run are stated in: the invariants of 10_state.md rule R34, the
ways a run ends (40_sequencer.md rule R120) and the stack-pointer range (43_stack.md rule R164). -/

namespace Sys2Proof.Machine

/-- The invariant of every reachable state (rule R34): `FL = 0`, and an error only in a Halted core;
with the canonical form of the model's memory. The ranges of rule R34 hold by the types and by the bound in
`Memory.wf`. -/
structure MachineInv (s : State) : Prop where
  memory : Memory.wf s.mem
  flags : s.fl = 0
  error : s.err ≠ none → s.run = .halted

/-- A run that ended by HLT, its only normal completion (rule R120). -/
def CompletedNormally (s : State) : Prop := s.run = .halted ∧ s.err = none

/-- A run that a fatal error ended (rule R120). -/
def EndedByError (s : State) : Prop := s.run = .halted ∧ s.err ≠ none

/-- A run still going: what exhausted fuel leaves, never a completion (rule R121). -/
def StillRunning (s : State) : Prop := s.run = .running

/-- The document's stack-pointer range, `0 <= SP <= STACK_START` (rule R164). -/
def StackPointerInRange (s : State) : Prop := s.sp ≤ Config.stackStart

/-- No diagnostic was reported: what a claim about pushed data asks for (decision D13). -/
def NoDiagnostics (s : State) : Prop := s.diag = []

/-- The byte of memory at an address, as any observer of the state reads it. -/
def State.byteAt (s : State) (a : Nat) : Byte := Memory.lookup s.mem a

/-- The opcode byte the next step fetches (rule R111). -/
def State.opcode (s : State) : Byte := s.byteAt s.pc.toNat

/-- The program counter `n` bytes on: `pc + n`, or 0 where that reaches 256 (rules R25, R26). -/
def pcForward (pc : Byte) (n : Nat) : Byte :=
  if pc.toNat + n < 256 then BitVec.ofNat 8 (pc.toNat + n) else 0

/-- The nineteen opcode bytes that decode to an instruction, read off the grid of rule R91. -/
def opcodeGrid : List (Byte × Opcode) :=
  [(0x01, .hlt .zero), (0x41, .hlt .one), (0x81, .hlt .two),
   (0x82, .ldi), (0x47, .prn), (0x45, .push), (0x46, .pop),
   (0x20, .add .zero false), (0x60, .add .one false), (0xA0, .add .two false),
   (0x30, .add .zero true), (0x70, .add .one true), (0xB0, .add .two true),
   (0x22, .mul .zero false), (0x62, .mul .one false), (0xA2, .mul .two false),
   (0x32, .mul .zero true), (0x72, .mul .one true), (0xB2, .mul .two true)]

/-- How far the program counter moves after an instruction that neither halts nor faults, by the table of
rule R114. -/
def pcDistance : Opcode → Nat
  | .hlt _ => 0
  | .ldi => 3
  | .prn => 2
  | .push => 2
  | .pop => 2
  | .add oc spc => if spc then 0 else oc.toNat + 1
  | .mul oc spc => if spc then 0 else oc.toNat + 1

/-- The register an instruction names as its destination, by the table of rule R23; PUSH and POP write
register 7 besides. -/
def destination : Instr → Option Byte
  | .hlt _ => none
  | .ldi a _ => some a
  | .prn _ => none
  | .push _ => none
  | .pop a => some a
  | .add _ _ a _ => some a
  | .mul _ _ a _ => some a

end Sys2Proof.Machine
end

