-- ==== Sys2Proof/Certificates/Slice0/Obligations.lean ====
section
/-! DEFINITION. The statements for the provers, each a rule of the spec, or a consequence of its rules,
about every state, operand or byte. Each docstring names the rules; where a clause rests on a decision of
the spec (92_eei_decisions.md D<n>) and not on the source document, it says so. -/

open Sys2Proof Sys2Proof.Machine

/-! ### Encoding -/

/-- Decode and encode agree in both directions (30_encoding.md rules R80 to R87): a byte string decodes to
`i` exactly when it begins with the encoding of `i`. -/
def Obligations.DecodeInvertsEncode : Prop :=
  ∀ (bytes : List Byte) (i : Instr), decode bytes = .ok i ↔ ∃ rest, bytes = encode i ++ rest

/-- The complete map of the 256 opcode bytes (rule R91): the nineteen of the grid and no other. It rests
on decisions D5 to D8, D11 and D22, and for PUSH and POP on D9. -/
def Obligations.OpcodeMapIsTheGrid : Prop :=
  ∀ (ir : Byte) (op : Opcode), decodeOpcode ir = .ok op ↔ (ir, op) ∈ opcodeGrid

/-- The four fields of the opcode byte stand where rule R81 puts them, with the bit numbering of rule R7. -/
def Obligations.OpcodeFieldsLieWhereTheSpecPutsThem : Prop :=
  ∀ ir : Byte,
    (ocField ir).toNat = ir.toNat / 64 ∧
    (aluField ir).toNat = ir.toNat / 32 % 2 ∧
    (spcField ir).toNat = ir.toNat / 16 % 2 ∧
    (idField ir).toNat = ir.toNat % 16

/-- Words written out from the spec's encodings decode to the instructions they stand for (rules R85, R86,
R87; PUSH and POP by decision D9). -/
def Obligations.SpecWordsDecode : Prop :=
  decode [0x01] = .ok (.hlt .zero) ∧
  decode [0x82, 0x00, 0x08] = .ok (.ldi 0 8) ∧
  decode [0x47, 0x03] = .ok (.prn 3) ∧
  decode [0x45, 0x01] = .ok (.push 1) ∧
  decode [0x46, 0x02] = .ok (.pop 2) ∧
  decode [0xA0, 0x00, 0x01] = .ok (.add .two false 0 1) ∧
  decode [0xB2, 0x04, 0x05] = .ok (.mul .two true 4 5)

/-- An ALU id that is not registered raises UnsupportedOpcode whatever `oc` and `spc` are, and before any
operand is read, so also where the operand bytes would lie above 255 (rule R144). -/
def Obligations.UnregisteredAluIdRaisesUnsupportedOpcode : Prop :=
  ∀ s : State, s.run = .running → s.opcode.toNat / 32 % 2 = 1 →
    s.opcode.toNat % 16 ≠ 0b0000 → s.opcode.toNat % 16 ≠ 0b0010 →
    step s = .next { s with run := .halted, err := some .unsupportedOpcode }

/-- The other bytes that decode to nothing: `operand_count` 3 (rule R88, decision D5), the `sets_pc` class
(rule R89, decision D6), an unregistered id of the Instruction Dispatcher (rule R86) and a registered id
with the wrong operand count (rule R90, decision D8). Each raises UnsupportedOpcode. -/
def Obligations.ReservedOpcodesRaiseUnsupportedOpcode : Prop :=
  ∀ s : State, s.run = .running →
    (192 ≤ s.opcode.toNat ∨
      (s.opcode.toNat / 32 % 2 = 0 ∧ s.opcode.toNat / 16 % 2 = 1) ∨
      (s.opcode.toNat / 32 % 2 = 0 ∧ s.opcode.toNat % 16 ∉ [0b0001, 0b0010, 0b0111, 0b0101, 0b0110]) ∨
      s.opcode ∈ ([0x02, 0x42, 0x07, 0x87, 0x05, 0x85, 0x06, 0x86] : List Byte)) →
    step s = .next { s with run := .halted, err := some .unsupportedOpcode }

/-! ### The step -/

/-- A running core whose bytes at the program counter decode to `i` does exactly what `exec i` does: this
machine adds nothing around it, the program counter included (rule R110). -/
def Obligations.StepRunsTheDecodedInstruction : Prop :=
  ∀ (s : State) (i : Instr), s.run = .running → decode (bytesAt s.mem s.pc.toNat) = .ok i →
    step s = exec i s

/-- The same from the bytes of memory: wherever the encoding of any instruction stands whole at the program
counter, the opcode byte lowest (rule R54), a running core executes that instruction (rules R110, R113). -/
def Obligations.StepRunsTheInstructionEncodedInMemory : Prop :=
  ∀ (s : State) (i : Instr), s.run = .running →
    s.pc.toNat + (encode i).length ≤ 256 →
    (∀ k (h : k < (encode i).length), s.byteAt (s.pc.toNat + k) = (encode i)[k]) →
    step s = exec i s

/-- The opcode fetch reads the current content of memory at the program counter and never raises
OutOfBounds (rule R111): the byte is the first one the decoder sees, and a byte just written there is the
byte fetched. -/
def Obligations.OpcodeFetchReadsCurrentMemory : Prop :=
  (∀ s : State, memRead s s.pc.toNat = .ok s.opcode ∧
    ∃ rest, bytesAt s.mem s.pc.toNat = s.opcode :: rest) ∧
  (∀ (s s' : State) (v : Byte), memWrite s s.pc.toNat v = .ok s' → s'.opcode = v)

/-- Operand bytes are read after the decode has succeeded, only those the instruction uses, and one that
would lie above address 255 raises OutOfBounds and does not wrap (rule R113, decision D10). The operation
need not complete: nothing but `RUN` and `ERR` changes. -/
def Obligations.OperandFetchPastTheTopRaisesOutOfBounds : Prop :=
  ∀ (s : State) (op : Opcode), s.run = .running → decodeOpcode s.opcode = .ok op →
    256 ≤ s.pc.toNat + op.operandBytes →
    step s = .next { s with run := .halted, err := some .outOfBounds }

/-- A Halted core asked for any number of steps changes nothing (rules R119, R176, R199, decision D23). -/
def Obligations.HaltedIsTerminal : Prop :=
  ∀ (k : Nat) (s : State), s.run = .halted →
    step s = .next s ∧ Host.Core.run core k s = .next s

/-- A running core's step always answers a next state, with one of three outcomes (rule R9): the run goes
on and `ERR` keeps its value; a HLT changes `RUN` alone; a fatal error changes `RUN` and `ERR` alone, so
the faulting instruction has no other effect and `pc` stays (rule R197; its precision is decisions D12 and
D18). -/
def Obligations.StepHasThreeOutcomes : Prop :=
  ∀ s : State, s.run = .running → ∃ t, step s = .next t ∧
    ((t.run = .running ∧ t.err = s.err) ∨
     ((∃ oc, decodeOpcode s.opcode = .ok (.hlt oc)) ∧ t = { s with run := .halted }) ∨
     (∃ e, t = { s with run := .halted, err := some e }))

/-- The program counter after a step, by the table of rule R114: while the run goes on it moves by the
opcode's distance and is 0 exactly where that reaches 256, which it never passes; for an instruction that
reads at least as many operand bytes as it advances it cannot reach it; a step that ends the run leaves it. -/
def Obligations.ProgramCounterFollowsTheTable : Prop :=
  ∀ (s t : State), s.run = .running → step s = .next t →
    (t.run = .halted → t.pc = s.pc) ∧
    (t.run = .running → ∃ op, decodeOpcode s.opcode = .ok op ∧
      ((s.pc.toNat + pcDistance op < 256 ∧ t.pc.toNat = s.pc.toNat + pcDistance op) ∨
       (s.pc.toNat + pcDistance op = 256 ∧ t.pc = 0)) ∧
      (pcDistance op ≤ op.operandBytes → s.pc.toNat + pcDistance op < 256))

/-- UnsupportedOpcode is raised for exactly the 237 opcode bytes outside the grid of rule R91 (rule R191;
the extent of the grid rests on decisions D5, D6, D8 and D9), and then nothing but `RUN` and `ERR` changes. -/
def Obligations.UnsupportedOpcodeExactlyOutsideTheGrid : Prop :=
  ∀ (s t : State), s.run = .running → s.err = none → step s = .next t →
    (t.err = some .unsupportedOpcode ↔ ∀ op, (s.opcode, op) ∉ opcodeGrid) ∧
    (t.err = some .unsupportedOpcode →
      t = { s with run := .halted, err := some .unsupportedOpcode })

/-- OutOfBounds is raised inside a step exactly when the opcode byte decodes and either an operand byte
would lie at address 256 or above or a register operand is 8 to 255; at the load interface for an image
longer than 256 bytes (rule R192; the operand address that does not wrap is decision D10, log entry 10, the
unmasked register index D25, log entry 15, the fault that changes nothing else D12, log entry 11). That a too
long image fails so is decision D20, and that the failed load writes nothing, neither memory nor anything
else but `RUN` and `ERR`, is the model's own choice (log entry 16). -/
def Obligations.OutOfBoundsExactlyWhenARangeIsLeft : Prop :=
  (∀ (s t : State), s.run = .running → s.err = none → step s = .next t →
    (t.err = some .outOfBounds ↔ ∃ op, decodeOpcode s.opcode = .ok op ∧
      (256 ≤ s.pc.toNat + op.operandBytes ∨
        ∃ i, decode (bytesAt s.mem s.pc.toNat) = .ok i ∧
          ∃ a ∈ i.registerOperands, 8 ≤ a.toNat)) ∧
    (t.err = some .outOfBounds → t = { s with run := .halted, err := some .outOfBounds })) ∧
  (∀ (image : List Byte) (s : State), 256 < image.length →
    load image s = { s with run := .halted, err := some .outOfBounds })

/-! ### HLT -/

/-- HLT completes from every state, whatever its byte's operand count: `RUN` becomes Halted and nothing
else changes (rule R117; the aliases are decision D22). -/
def Obligations.HltSetsRunToHalted : Prop :=
  ∀ (oc : OperandCount) (s : State), exec (.hlt oc) s = .next { s with run := .halted }

/-- HLT as the machine meets it (rule R117): the six low bits of the opcode byte are 000001 and its count
is not 3; then the step halts cleanly at every address, 254 and 255 included. With bit 5 or bit 4 set the
id 0001 is no halt and raises UnsupportedOpcode. -/
def Obligations.HltByteHaltsAtEveryAddress : Prop :=
  ∀ s : State, s.run = .running →
    (s.opcode.toNat % 64 = 0b000001 → s.opcode.toNat / 64 ≠ 3 →
      step s = .next { s with run := .halted }) ∧
    (s.opcode ∈ ([0x21, 0x61, 0xA1, 0x11, 0x51, 0x91] : List Byte) →
      step s = .next { s with run := .halted, err := some .unsupportedOpcode })

/-! ### LDI and PRN -/

/-- LDI completes and loads its immediate unchanged where its operand bytes lie in memory and its register
index is in 0 to 7, register 7 included; nothing else but `pc` changes (rule R151). -/
def Obligations.LdiLoadsTheImmediate : Prop :=
  ∀ (a imm : Byte) (s : State) (_ : a.toNat < 8), s.pc.toNat ≤ 253 →
    exec (.ldi a imm) s =
      .next { s with regs := s.regs.set a.toNat imm, pc := pcForward s.pc 3 }

/-- The whole of rule R151 as the machine meets it: the byte 0x82, its two operand bytes, the result with
the wrapped program counter, and OutOfBounds with nothing written where `pc` is 254 or more or the index is
above 7. -/
def Obligations.LdiByteLoadsOrRaises : Prop :=
  ∀ s : State, s.run = .running → s.opcode = 0x82 →
    step s =
      if h : s.pc.toNat < 254 ∧ (s.byteAt (s.pc.toNat + 1)).toNat < 8 then
        .next { s with
          regs := s.regs.set (s.byteAt (s.pc.toNat + 1)).toNat (s.byteAt (s.pc.toNat + 2)) h.2
          pc := pcForward s.pc 3 }
      else .next { s with run := .halted, err := some .outOfBounds }

/-- PRN completes and appends the register's value to `OUT` where its operand byte lies in memory and its
index is in 0 to 7; nothing else but `pc` changes (rule R152; `OUT` as a stream is decision D15). -/
def Obligations.PrnEmitsTheRegister : Prop :=
  ∀ (a : Byte) (s : State) (_ : a.toNat < 8), s.pc.toNat ≤ 254 →
    exec (.prn a) s =
      .next { s with out := s.out ++ [s.regs[a.toNat]], pc := pcForward s.pc 2 }

/-- For every register and value, LDI followed by PRN of the same register outputs the value exactly
(rules R151 and R152). -/
def Obligations.LdiThenPrnOutputsTheImmediate : Prop :=
  ∀ (a imm : Byte) (s : State), a.toNat < 8 → s.pc.toNat ≤ 251 →
    ∃ t u, exec (.ldi a imm) s = .next t ∧ exec (.prn a) t = .next u ∧
      u.out = s.out ++ [imm] ∧ u.pc = pcForward s.pc 5

/-! ### ADD and MUL -/

/-- ADD completes where its operand bytes lie in memory and both indices are in 0 to 7: register `a`
receives the exact sum modulo 256, both sources read before the write (`a = b` doubles); nothing else
changes but `pc`, which moves by `oc + 1` and not at all with `sets_pc` (rules R140 and R141; the width is
decision D1, the aliases decisions D7 and D11). -/
def Obligations.AddWritesTheSumModulo256 : Prop :=
  ∀ (oc : OperandCount) (spc : Bool) (a b : Byte) (s : State) (_ : a.toNat < 8) (_ : b.toNat < 8),
    s.pc.toNat ≤ 253 →
    exec (.add oc spc a b) s =
      .next { s with
        regs := s.regs.set a.toNat
          (BitVec.ofNat 8 ((s.regs[a.toNat].toNat + s.regs[b.toNat].toNat) % 256))
        pc := if spc then s.pc else pcForward s.pc (oc.toNat + 1) }

/-- MUL completes under the same conditions: register `a` receives the low 8 bits of the product, the high
8 bits are stored nowhere (rules R140 and R142; decisions D1, D7 and D11). -/
def Obligations.MulWritesTheProductModulo256 : Prop :=
  ∀ (oc : OperandCount) (spc : Bool) (a b : Byte) (s : State) (_ : a.toNat < 8) (_ : b.toNat < 8),
    s.pc.toNat ≤ 253 →
    exec (.mul oc spc a b) s =
      .next { s with
        regs := s.regs.set a.toNat
          (BitVec.ofNat 8 ((s.regs[a.toNat].toNat * s.regs[b.toNat].toNat) % 256))
        pc := if spc then s.pc else pcForward s.pc (oc.toNat + 1) }

/-- The same bit patterns result whether the operands are read as unsigned or as two's-complement signed
(rule R143, which is decision D1), and below 256 the result is the exact one. -/
def Obligations.ArithmeticHasNoSign : Prop :=
  ∀ x y : Byte,
    addResult x y = BitVec.ofInt 8 (x.toInt + y.toInt) ∧
    mulResult x y = BitVec.ofInt 8 (x.toInt * y.toInt) ∧
    (x.toNat + y.toNat < 256 → (addResult x y).toNat = x.toNat + y.toNat) ∧
    (x.toNat * y.toNat < 256 → (mulResult x y).toNat = x.toNat * y.toNat)

/-- An ALU instruction encoded with `sets_pc` = 1 is executed again at every step, for ever: after any
number of steps the core is still Running at the same address (rule R118, decision D7). -/
def Obligations.AluAliasWithSetsPcRunsForEver : Prop :=
  ∀ (k : Nat) (s : State) (oc : OperandCount) (a b : Byte),
    s.run = .running → a.toNat < 8 → b.toNat < 8 →
    (decode (bytesAt s.mem s.pc.toNat) = .ok (.add oc true a b) ∨
      decode (bytesAt s.mem s.pc.toNat) = .ok (.mul oc true a b)) →
    ∃ t, Host.Core.run core k s = .next t ∧ t.run = .running ∧ t.pc = s.pc

/-! ### PUSH and POP -/

/-- PUSH completes, away from the floor, where its operand byte lies in memory and its index is in 0 to 7:
the stack pointer is decremented, the register, read after the decrement, is written to the new address,
and nothing else changes but `pc` (rule R161; PUSH R7 is decision D26). -/
def Obligations.PushStoresBelowTheStackPointer : Prop :=
  ∀ (a : Byte) (s : State) (h : a.toNat < 8), s.pc.toNat ≤ 254 → s.reg 7 ≠ 0 →
    ∃ t, exec (.push a) s = .next t ∧
      (t.reg 7).toNat = (s.reg 7).toNat - 1 ∧
      t.byteAt ((s.reg 7).toNat - 1) = (if a = 7 then s.reg 7 - 1 else s.reg ⟨a.toNat, h⟩) ∧
      (∀ x, x ≠ (s.reg 7).toNat - 1 → t.byteAt x = s.byteAt x) ∧
      (∀ r : Fin 8, r ≠ 7 → t.reg r = s.reg r) ∧
      t.pc = pcForward s.pc 2 ∧ t.fl = s.fl ∧ t.run = s.run ∧ t.err = s.err ∧
      t.out = s.out ∧ t.diag = s.diag

/-- PUSH at the floor completes too: the diagnostic is emitted, neither memory nor the stack pointer is
written, `pc` advances and the run goes on (rules R161 and R193, decision D13). -/
def Obligations.PushAtTheFloorOnlyReports : Prop :=
  ∀ (a : Byte) (s : State), a.toNat < 8 → s.pc.toNat ≤ 254 → s.reg 7 = 0 →
    exec (.push a) s =
      .next { s with diag := s.diag ++ [.stackOverflow], pc := pcForward s.pc 2 }

/-- POP completes, where the incremented pointer stays at or below 0xF4: the byte at the old pointer goes
to register `a`, then register 7 is incremented as it stands after that write, so POP R7 increments the
loaded value (rule R162; POP R7 is decision D26). -/
def Obligations.PopLoadsFromTheStackPointer : Prop :=
  ∀ (a : Byte) (s : State) (_ : a.toNat < 8), s.pc.toNat ≤ 254 →
    (if a = 7 then s.byteAt (s.reg 7).toNat else s.reg 7).toNat + 1 ≤ 0xF4 →
    exec (.pop a) s =
      .next { s with
        regs := (s.regs.set a.toNat (s.byteAt (s.reg 7).toNat)).set 7
          ((if a = 7 then s.byteAt (s.reg 7).toNat else s.reg 7) + 1)
        pc := pcForward s.pc 2 }

/-- POP past the bound: the register write still occurs, the stack pointer is set to 0xF4, StackUnderflow
is reported, `pc` advances by 2 and the run goes on with `ERR` unchanged (rules R162 and R194). The bound is
tested on the untruncated sum by decision D14 and, for POP R7, on the loaded value by decision D26 (log
entry 12). -/
def Obligations.PopPastTheBoundResetsTheStackPointer : Prop :=
  ∀ (a : Byte) (s : State) (_ : a.toNat < 8), s.pc.toNat ≤ 254 →
    0xF4 < (if a = 7 then s.byteAt (s.reg 7).toNat else s.reg 7).toNat + 1 →
    exec (.pop a) s =
      .next { s with
        regs := (s.regs.set a.toNat (s.byteAt (s.reg 7).toNat)).set 7 0xF4
        diag := s.diag ++ [.stackUnderflow]
        pc := pcForward s.pc 2 }

/-- Push then pop round-trips (rule R163): with the pointer in 1 to 0xF4, and between the two any change of
state that leaves register 7 and the pushed cell alone, POP into any `y` other than 7 delivers what PUSH
stored, restores the pointer, reports nothing and leaves the cell. That PUSH R7 stores the decremented
pointer is decision D26 (log entry 12). -/
def Obligations.PushThenPopRoundTrips : Prop :=
  ∀ (x y : Byte) (s t u : State) (hx : x.toNat < 8) (hy : y.toNat < 8),
    y ≠ 7 → 1 ≤ (s.reg 7).toNat → (s.reg 7).toNat ≤ 0xF4 → exec (.push x) s = .next t →
    u.reg 7 = t.reg 7 → u.byteAt (t.reg 7).toNat = t.byteAt (t.reg 7).toNat →
    t.diag = s.diag ∧
    ∃ w, exec (.pop y) u = .next w ∧
      w.reg ⟨y.toNat, hy⟩ = (if x = 7 then s.reg 7 - 1 else s.reg ⟨x.toNat, hx⟩) ∧
      w.reg 7 = s.reg 7 ∧ w.diag = u.diag ∧
      w.byteAt ((s.reg 7).toNat - 1) = (if x = 7 then s.reg 7 - 1 else s.reg ⟨x.toNat, hx⟩)

/-- Every step keeps the stack pointer in 0 to 0xF4 unless its instruction names register 7 as its
destination (rule R164), and a POP into another register brings it back from anywhere above, from 0xFF by the
untruncated comparison of decision D14 (log entry 12). -/
def Obligations.StackPointerStaysInRange : Prop :=
  (∀ s t : State, StackPointerInRange s → step s = .next t →
    (∀ i, decode (bytesAt s.mem s.pc.toNat) = .ok i → destination i ≠ some 7) →
    StackPointerInRange t) ∧
  (∀ (a : Byte) (s t : State), a.toNat < 8 → a ≠ 7 → exec (.pop a) s = .next t →
    StackPointerInRange t)

/-- A byte a PUSH wrote where the next instruction is fetched is the opcode byte of the next step (rule R61,
decision D21, log entry 17). The value and the address are those of rule R161; that PUSH R7 stores the
decremented pointer is decision D26 (log entry 12). -/
def Obligations.PushedByteIsFetchedNext : Prop :=
  ∀ (a : Byte) (s t : State) (h : a.toNat < 8), s.reg 7 ≠ 0 → exec (.push a) s = .next t →
    t.pc.toNat = (s.reg 7).toNat - 1 →
    t.opcode = (if a = 7 then s.reg 7 - 1 else s.reg ⟨a.toNat, h⟩)

/-! ### Register operands -/

/-- Every instruction raises OutOfBounds, and does nothing else, when one of its register operands is 8 to
255: the whole byte is the index (rules R23 and R83, decision D25), and the check comes before PUSH's guard
and before any write (rule R196, decision D12). With every register operand in 0 to 7 no instruction raises
anything. -/
def Obligations.RegisterIndexDecidesOutOfBounds : Prop :=
  ∀ (i : Instr) (s : State),
    ((∃ a ∈ i.registerOperands, 8 ≤ a.toNat) →
      exec i s = .next { s with run := .halted, err := some .outOfBounds }) ∧
    ((∀ a ∈ i.registerOperands, a.toNat < 8) → ∃ t, exec i s = .next t ∧ t.err = s.err)

/-! ### Frames -/

/-- The frame of LDI, ADD and MUL (rules R23 and R53; R27 for `FL`): no register but the destination
changes, no byte of memory, no flag and neither stream; `RUN` and `ERR` only by a fatal error, which changes
nothing else (decision D12, log entry 11). -/
def Obligations.LdiAddMulChangeOnlyTheirDestination : Prop :=
  ∀ (i : Instr) (a : Byte) (s t : State),
    ((∃ imm, i = .ldi a imm) ∨ (∃ oc spc b, i = .add oc spc a b) ∨ (∃ oc spc b, i = .mul oc spc a b)) →
    exec i s = .next t →
    (∀ r : Fin 8, r.val ≠ a.toNat → t.reg r = s.reg r) ∧
    (∀ x, t.byteAt x = s.byteAt x) ∧ t.mem = s.mem ∧
    t.fl = s.fl ∧ t.out = s.out ∧ t.diag = s.diag ∧
    ((t.run = s.run ∧ t.err = s.err) ∨ t = { s with run := .halted, err := some .outOfBounds })

/-- The frame of HLT and PRN, which write no register and no memory (rules R23 and R53): HLT changes `RUN`
alone; PRN appends at most one value to `OUT`. A fatal error changes nothing else by decision D12 (log entry
11). -/
def Obligations.HltAndPrnWriteNoRegister : Prop :=
  ∀ (i : Instr) (s t : State), ((∃ oc, i = .hlt oc) ∨ (∃ a, i = .prn a)) → exec i s = .next t →
    (∀ r : Fin 8, t.reg r = s.reg r) ∧ t.regs = s.regs ∧
    (∀ x, t.byteAt x = s.byteAt x) ∧ t.mem = s.mem ∧ t.fl = s.fl ∧ t.diag = s.diag ∧
    ((∃ oc, i = .hlt oc) → t = { s with run := .halted }) ∧
    ((∃ a, i = .prn a) →
      (t.run = s.run ∧ t.err = s.err ∧ ∃ v, t.out = s.out ++ [v]) ∨
      t = { s with run := .halted, err := some .outOfBounds })

/-- The frame of PUSH (rules R23, R53 and R161): no register but 7, and no byte of memory but the one at
the decremented stack pointer, none at all at the floor, where the run goes on by decision D13 (log entry
12). A fatal error changes nothing else by decision D12 (log entry 11). -/
def Obligations.PushChangesOnlyTheStack : Prop :=
  ∀ (a : Byte) (s t : State), exec (.push a) s = .next t →
    (∀ r : Fin 8, r ≠ 7 → t.reg r = s.reg r) ∧
    (∀ x, x ≠ (pushPointer s.sp).toNat → t.byteAt x = s.byteAt x) ∧
    (s.sp = 0 → t.mem = s.mem ∧ t.regs = s.regs) ∧
    t.fl = s.fl ∧ t.out = s.out ∧
    ((t.run = s.run ∧ t.err = s.err ∧ (t.diag = s.diag ∨ t.diag = s.diag ++ [.stackOverflow])) ∨
      t = { s with run := .halted, err := some .outOfBounds })

/-- The frame of POP (rules R23, R53 and R162): no register but the destination and 7, and no byte of
memory: the popped cell is not cleared. A fatal error changes nothing else by decision D12 (log entry 11). -/
def Obligations.PopChangesNoMemory : Prop :=
  ∀ (a : Byte) (s t : State), exec (.pop a) s = .next t →
    (∀ r : Fin 8, r.val ≠ a.toNat → r ≠ 7 → t.reg r = s.reg r) ∧
    (∀ x, t.byteAt x = s.byteAt x) ∧ t.mem = s.mem ∧
    t.fl = s.fl ∧ t.out = s.out ∧
    ((t.run = s.run ∧ t.err = s.err ∧ (t.diag = s.diag ∨ t.diag = s.diag ++ [.stackUnderflow])) ∨
      t = { s with run := .halted, err := some .outOfBounds })

/-! ### The whole machine -/

/-- PUSH is the only instruction that writes memory, and then only at the decremented stack pointer, away
from the floor (rules R32 and R53). -/
def Obligations.OnlyPushWritesMemory : Prop :=
  ∀ (s t : State) (x : Nat), step s = .next t → t.byteAt x ≠ s.byteAt x →
    s.run = .running ∧ decodeOpcode s.opcode = .ok .push ∧ s.reg 7 ≠ 0 ∧
      x = (s.reg 7).toNat - 1

/-- Nothing reads or writes the flags register (rule R27): no step changes it, and a step from a state that
differs in it alone differs in it alone. -/
def Obligations.FlagsRegisterIsInert : Prop :=
  ∀ (s t : State) (f : Byte), step s = .next t →
    t.fl = s.fl ∧ step { s with fl := f } = .next { t with fl := f }

/-- The two streams are append-only and no instruction reads them (rule R30; two streams by decision D15):
a step appends to what they hold, at most one event in all, none when it raises a fatal error (rule R196),
OUT only by a PRN, StackOverflow only by a PUSH at 0, StackUnderflow only by a POP; and with other contents
it appends the same and does the same. -/
def Obligations.StreamsAreAppendOnlyAndUnread : Prop :=
  ∀ (s t : State) (o : List Byte) (d : List Diagnostic), step s = .next t →
    ∃ eo ed, t.out = s.out ++ eo ∧ t.diag = s.diag ++ ed ∧
      eo.length + ed.length ≤ 1 ∧
      (t.err ≠ s.err → eo = [] ∧ ed = []) ∧
      (eo ≠ [] → decodeOpcode s.opcode = .ok .prn) ∧
      (.stackOverflow ∈ ed → decodeOpcode s.opcode = .ok .push ∧ s.reg 7 = 0) ∧
      (.stackUnderflow ∈ ed → decodeOpcode s.opcode = .ok .pop) ∧
      step { s with out := o, diag := d } = .next { t with out := o ++ eo, diag := d ++ ed }

/-- Every step keeps the invariant: canonical memory, `FL` = 0, and an error only in a Halted core (rule
R34). It holds in every state with `MachineInv`, whether a run reaches it or not. -/
def Obligations.StepKeepsTheInvariant : Prop :=
  ∀ s t : State, MachineInv s → step s = .next t → MachineInv t

/-- The invariant holds right after reset (rules R33 and R34). -/
def Obligations.ResetSatisfiesTheInvariant : Prop := MachineInv State.reset

/-- From the launch state of any program image, of any length, any number of step requests ends in a next
state with the invariant: no run stops with a fault or a refusal (rules R34, R172 and R221). The canonical
form in the invariant is the model's own (log entry 17), `FL` = 0 rests on decision D3 (log entry 5). -/
def Obligations.EveryRunKeepsTheInvariant : Prop :=
  ∀ (image : List Byte) (k : Nat),
    ∃ t, Host.Core.run core k (launch image) = .next t ∧ MachineInv t

/-! ### Reset, load and memory -/

/-- The state right after reset (rules R33 and R220). The zero of `reg[0]` to `reg[6]` is decision D4 (log
entry 6), the zero of `FL` decision D3 (log entry 5), `ERR`, `OUT` and `DIAG` decisions D15 and D17. -/
def Obligations.ResetLeavesTheTable : Prop :=
  (∀ x, State.reset.byteAt x = 0) ∧
  (∀ r : Fin 8, State.reset.reg r = if r = 7 then 0xF4 else 0) ∧
  State.reset.pc = 0 ∧ State.reset.fl = 0 ∧ State.reset.run = .running ∧ State.reset.err = none ∧
  State.reset.out = [] ∧ State.reset.diag = []

/-- The load interface (rule R172): byte `k` of the image stands at address `k`, every other cell and every
other piece of state is as it was; an image longer than 256 bytes fails with OutOfBounds (decision D20). From
reset this is the launch state of rule R221. -/
def Obligations.LoadPlacesTheImage : Prop :=
  (∀ (image : List Byte) (s : State), image.length ≤ 256 →
    (∀ x, (load image s).byteAt x = if h : x < image.length then image[x] else s.byteAt x) ∧
    load image s = { s with mem := (load image s).mem }) ∧
  (∀ (image : List Byte) (s : State), 256 < image.length →
    load image s = { s with run := .halted, err := some .outOfBounds })

/-- Memory gives back the byte last written by the loader or a write, or 0 if nothing has written it since
reset; a write replaces that byte and nothing else (rule R51). -/
def Obligations.MemoryReturnsTheLastWrite : Prop :=
  (∀ (s : State) (a : Nat) (v : Byte), a < 256 →
    ∃ t, memWrite s a v = .ok t ∧ memRead t a = .ok v ∧
      (∀ b, b ≠ a → memRead t b = memRead s b) ∧ t = { s with mem := t.mem }) ∧
  (∀ a, a < 256 → memRead State.reset a = .ok 0) ∧
  (∀ (image : List Byte) (a : Nat), image.length ≤ 256 → a < 256 →
    memRead (launch image) a = .ok (image.getD a 0))

/-- The range check (rule R52): an address above 255 raises OutOfBounds for a read and for a write, never
reduced. The second clause is what R52 marks as derived, from an 8-bit `pc` and stack pointer (decisions D2
and D1, log entries 4 and 3) and an operand address that does not wrap (decision D10, log entry 10): the
opcode fetch, the PUSH write and the POP read are always in range, and an operand address is out of range
only when `pc` is 254 or 255. -/
def Obligations.OnlyOperandReadsCanLeaveMemory : Prop :=
  (∀ (s : State) (a : Nat) (v : Byte), 255 < a →
    memRead s a = .error .outOfBounds ∧ memWrite s a v = .error .outOfBounds) ∧
  (∀ s : State, (∃ v, memRead s s.pc.toNat = .ok v) ∧ (∃ v, memRead s s.sp.toNat = .ok v) ∧
    (s.sp ≠ 0 → ∀ v, ∃ t, memWrite s (s.sp.toNat - 1) v = .ok t) ∧
    (∀ k, k ≤ 2 → memRead s (s.pc.toNat + k) = .error .outOfBounds → 254 ≤ s.pc.toNat))

/-- Two memories in canonical form that read alike are the same list, so equal memories are equal data (the
model's own form, log entry 17). -/
def Obligations.CanonicalMemoryIsUnique : Prop :=
  ∀ m n : Memory, Memory.wf m → Memory.wf n → (∀ a, Memory.lookup m a = Memory.lookup n a) → m = n

/-- An instruction placed for the next fetch is the one the next step executes, wherever its three bytes
fit (the model's own form, log entry 16; rule R110). -/
def Obligations.PlacedWordIsExecutedNext : Prop :=
  ∀ (s : State) (nbits w : Nat) (i : Instr), s.pc.toNat ≤ 253 → decodeTableWord nbits w = some i →
    step (s.withFetchWord nbits w) = exec i (s.withFetchWord nbits w)

/-! ### The output text -/

/-- The text of one output value is its unsigned decimal numeral (rule R173, decision D16): decimal digits
alone, at least one, no leading zero but in the numeral of 0 itself, and their value is the byte's. -/
def Obligations.OutputNumeralIsTheUnsignedDecimal : Prop :=
  ∀ v : Byte,
    (outputNumeral v).toList.all Char.isDigit = true ∧
    (outputNumeral v).toList ≠ [] ∧
    ((outputNumeral v).toList.head? = some '0' → (outputNumeral v).toList = ['0']) ∧
    (outputNumeral v).toList.foldl (fun n c => 10 * n + (c.toNat - '0'.toNat)) 0 = v.toNat

/-- The output of a run as text (rule R173, decision D16): it is the concatenation of one line for each
`OUT` value, the numeral and one line terminator; it is empty at the launch of any image; a PRN adds the
line of its register's value at the end; and no other step adds anything. It holds for every line
terminator: its characters are free (log entry 23). -/
def Obligations.OutputTextGrowsByOneLinePerPrn : Prop :=
  (∀ s : State,
    s.outputText = String.join (s.out.map fun v => outputNumeral v ++ Config.lineTerminator)) ∧
  (∀ image : List Byte, (launch image).outputText = "") ∧
  (∀ (a : Byte) (s : State) (_ : a.toNat < 8), s.pc.toNat ≤ 254 →
    ∃ t, exec (.prn a) s = .next t ∧
      t.outputText = s.outputText ++ (outputNumeral s.regs[a.toNat] ++ Config.lineTerminator)) ∧
  (∀ s t : State, step s = .next t → (s.run = .halted ∨ decodeOpcode s.opcode ≠ .ok .prn) →
    t.outputText = s.outputText)
end

