-- ==== Sys2Proof/Laws/State.lean ====
section
/-! SUPPORT. One lemma per field per update of State, each true by rfl, so that no later proof unfolds a
record update; and reading a register after writing one. -/

namespace Sys2Proof.Machine

/-! ### setReg -/

@[simp] theorem State.setReg_mem (s : State) (r v) : (s.setReg r v).mem = s.mem := rfl
@[simp] theorem State.setReg_pc (s : State) (r v) : (s.setReg r v).pc = s.pc := rfl
@[simp] theorem State.setReg_fl (s : State) (r v) : (s.setReg r v).fl = s.fl := rfl
@[simp] theorem State.setReg_run (s : State) (r v) : (s.setReg r v).run = s.run := rfl
@[simp] theorem State.setReg_err (s : State) (r v) : (s.setReg r v).err = s.err := rfl
@[simp] theorem State.setReg_out (s : State) (r v) : (s.setReg r v).out = s.out := rfl
@[simp] theorem State.setReg_diag (s : State) (r v) : (s.setReg r v).diag = s.diag := rfl

/-- Read after write in the register file. -/
@[simp] theorem State.reg_setReg (s : State) (r q : Fin 8) (v : Byte) :
    (s.setReg r v).reg q = if r = q then v else s.reg q := by
  simp [State.reg, State.setReg, Vector.getElem_set, Fin.ext_iff]

/-! ### emitOut, emitDiag -/

@[simp] theorem emitOut_mem (v s) : (emitOut v s).mem = s.mem := rfl
@[simp] theorem emitOut_regs (v s) : (emitOut v s).regs = s.regs := rfl
@[simp] theorem emitOut_reg (v s r) : (emitOut v s).reg r = s.reg r := rfl
@[simp] theorem emitOut_pc (v s) : (emitOut v s).pc = s.pc := rfl
@[simp] theorem emitOut_fl (v s) : (emitOut v s).fl = s.fl := rfl
@[simp] theorem emitOut_run (v s) : (emitOut v s).run = s.run := rfl
@[simp] theorem emitOut_err (v s) : (emitOut v s).err = s.err := rfl
@[simp] theorem emitOut_out (v s) : (emitOut v s).out = s.out ++ [v] := rfl
@[simp] theorem emitOut_diag (v s) : (emitOut v s).diag = s.diag := rfl

@[simp] theorem emitDiag_mem (k s) : (emitDiag k s).mem = s.mem := rfl
@[simp] theorem emitDiag_regs (k s) : (emitDiag k s).regs = s.regs := rfl
@[simp] theorem emitDiag_reg (k s r) : (emitDiag k s).reg r = s.reg r := rfl
@[simp] theorem emitDiag_pc (k s) : (emitDiag k s).pc = s.pc := rfl
@[simp] theorem emitDiag_fl (k s) : (emitDiag k s).fl = s.fl := rfl
@[simp] theorem emitDiag_run (k s) : (emitDiag k s).run = s.run := rfl
@[simp] theorem emitDiag_err (k s) : (emitDiag k s).err = s.err := rfl
@[simp] theorem emitDiag_out (k s) : (emitDiag k s).out = s.out := rfl
@[simp] theorem emitDiag_diag (k s) : (emitDiag k s).diag = s.diag ++ [k] := rfl

/-! ### halt, raise -/

@[simp] theorem halt_mem (s) : (halt s).mem = s.mem := rfl
@[simp] theorem halt_regs (s) : (halt s).regs = s.regs := rfl
@[simp] theorem halt_reg (s r) : (halt s).reg r = s.reg r := rfl
@[simp] theorem halt_pc (s) : (halt s).pc = s.pc := rfl
@[simp] theorem halt_fl (s) : (halt s).fl = s.fl := rfl
@[simp] theorem halt_run (s) : (halt s).run = .halted := rfl
@[simp] theorem halt_err (s) : (halt s).err = s.err := rfl
@[simp] theorem halt_out (s) : (halt s).out = s.out := rfl
@[simp] theorem halt_diag (s) : (halt s).diag = s.diag := rfl

@[simp] theorem raise_mem (e s) : (raise e s).mem = s.mem := rfl
@[simp] theorem raise_regs (e s) : (raise e s).regs = s.regs := rfl
@[simp] theorem raise_reg (e s r) : (raise e s).reg r = s.reg r := rfl
@[simp] theorem raise_pc (e s) : (raise e s).pc = s.pc := rfl
@[simp] theorem raise_fl (e s) : (raise e s).fl = s.fl := rfl
@[simp] theorem raise_run (e s) : (raise e s).run = .halted := rfl
@[simp] theorem raise_err (e s) : (raise e s).err = some e := rfl
@[simp] theorem raise_out (e s) : (raise e s).out = s.out := rfl
@[simp] theorem raise_diag (e s) : (raise e s).diag = s.diag := rfl

/-! ### advance -/

@[simp] theorem advance_mem (oc spc s) : (advance oc spc s).mem = s.mem := rfl
@[simp] theorem advance_regs (oc spc s) : (advance oc spc s).regs = s.regs := rfl
@[simp] theorem advance_reg (oc spc s r) : (advance oc spc s).reg r = s.reg r := rfl
@[simp] theorem advance_pc (oc spc s) : (advance oc spc s).pc = wrapPc (nextPc oc spc s.pc) := rfl
@[simp] theorem advance_fl (oc spc s) : (advance oc spc s).fl = s.fl := rfl
@[simp] theorem advance_run (oc spc s) : (advance oc spc s).run = s.run := rfl
@[simp] theorem advance_err (oc spc s) : (advance oc spc s).err = s.err := rfl
@[simp] theorem advance_out (oc spc s) : (advance oc spc s).out = s.out := rfl
@[simp] theorem advance_diag (oc spc s) : (advance oc spc s).diag = s.diag := rfl

/-! ### sp -/

/-- The stack pointer is register 7 (rule R22). -/
theorem State.sp_eq (s : State) : s.sp = s.reg 7 := rfl

end Sys2Proof.Machine
end

