-- ==== Sys2Proof/Laws/Memory.lean ====
section
/-! SUPPORT. The laws of memory: read after write, and that every memory operation keeps the canonical
form. The reading laws need no canonical form, so they hold in states no run reaches too. -/

namespace Sys2Proof.Machine

/-! ### Reading -/

@[simp] theorem Memory.lookup_nil (a : Nat) : Memory.lookup [] a = 0 := rfl

theorem Memory.lookup_erase (m : Memory) (a b : Nat) :
    Memory.lookup (Memory.erase m a) b = if a = b then 0 else Memory.lookup m b := by
  induction m with
  | nil => simp [Memory.erase]
  | cons c m ih =>
    by_cases hc : c.1 = a
    · have : Memory.erase (c :: m) a = Memory.erase m a := by simp [Memory.erase, hc]
      rw [this, ih]
      by_cases hb : a = b <;> simp [Memory.lookup, hc, hb]
    · have : Memory.erase (c :: m) a = c :: Memory.erase m a := by simp [Memory.erase, hc]
      rw [this]
      by_cases hb : a = b
      · subst hb; simp [Memory.lookup, hc, ih]
      · simp [Memory.lookup, ih, hb]

theorem Memory.lookup_insert (m : Memory) (a b : Nat) (v : Byte) (h : a ∉ m.map Prod.fst) :
    Memory.lookup (Memory.insert m a v) b = if a = b then v else Memory.lookup m b := by
  induction m with
  | nil => simp [Memory.insert, Memory.lookup, Config.unlistedByte]
  | cons c m ih =>
    simp only [List.map_cons, List.mem_cons, not_or] at h
    unfold Memory.insert
    split
    · simp [Memory.lookup]
    · by_cases hb : a = b
      · subst hb; simp [Memory.lookup, Ne.symm h.1, ih h.2]
      · simp [Memory.lookup, ih h.2, hb]

theorem Memory.not_mem_erase (m : Memory) (a : Nat) : a ∉ (Memory.erase m a).map Prod.fst := by
  simp [Memory.erase]

/-- Read after write: the byte written at that address, every other address as before. -/
@[simp] theorem Memory.lookup_store (m : Memory) (a b : Nat) (v : Byte) :
    Memory.lookup (Memory.store m a v) b = if a = b then v else Memory.lookup m b := by
  unfold Memory.store
  split
  · rename_i h; rw [Memory.lookup_erase]; simp [h, Config.unlistedByte]
  · rw [Memory.lookup_insert _ _ _ _ (Memory.not_mem_erase m a), Memory.lookup_erase]
    by_cases hb : a = b <;> simp [hb]

/-! ### The canonical form -/

theorem Memory.erase_wf {m : Memory} (h : Memory.wf m) (a : Nat) : Memory.wf (Memory.erase m a) :=
  ⟨h.1.filter _, fun c hc => h.2 c (List.mem_filter.1 hc).1⟩

theorem Memory.mem_insert {m : Memory} {a : Nat} {v : Byte} {c : Host.Cell} :
    c ∈ Memory.insert m a v ↔ c = (a, v) ∨ c ∈ m := by
  induction m with
  | nil => simp [Memory.insert]
  | cons d m ih =>
    unfold Memory.insert
    split
    · simp
    · simp [ih]; tauto

theorem Memory.insert_wf {m : Memory} (h : Memory.wf m) {a : Nat} {v : Byte} (ha : a < Config.memSize)
    (hv : v ≠ Config.unlistedByte) (hn : a ∉ m.map Prod.fst) : Memory.wf (Memory.insert m a v) := by
  refine ⟨?_, fun c hc => ?_⟩
  · have h1 := h.1
    clear h
    induction m with
    | nil => simp [Memory.insert]
    | cons d m ih =>
      simp only [List.map_cons, List.mem_cons, not_or] at hn
      rw [List.pairwise_cons] at h1
      unfold Memory.insert
      split
      · rename_i hlt
        refine List.pairwise_cons.2 ⟨fun c hc => ?_, List.pairwise_cons.2 h1⟩
        rcases List.mem_cons.1 hc with rfl | hc
        · exact hlt
        · exact lt_trans hlt (h1.1 c hc)
      · rename_i hlt
        refine List.pairwise_cons.2 ⟨fun c hc => ?_, ih hn.2 h1.2⟩
        rcases Memory.mem_insert.1 hc with rfl | hc
        · simp only at hlt ⊢; omega
        · exact h1.1 c hc
  · rcases Memory.mem_insert.1 hc with rfl | hc
    · exact ⟨ha, hv⟩
    · exact h.2 c hc

/-- Storing a byte keeps the canonical form. -/
theorem Memory.store_wf {m : Memory} (h : Memory.wf m) {a : Nat} (v : Byte) (ha : a < Config.memSize) :
    Memory.wf (Memory.store m a v) := by
  unfold Memory.store
  split
  · exact Memory.erase_wf h a
  · rename_i hv
    exact Memory.insert_wf (Memory.erase_wf h a) ha hv (Memory.not_mem_erase m a)

/-- The write operation of the core keeps the canonical form, and does nothing to the other fields. -/
theorem memWrite_spec {s s' : State} {a : Nat} {v : Byte} (h : memWrite s a v = .ok s') :
    a < Config.memSize ∧ s' = { s with mem := Memory.store s.mem a v } := by
  unfold memWrite at h
  split at h
  · rename_i ha; exact ⟨ha, (Except.ok.inj h).symm⟩
  · cases h

theorem memWrite_wf {s s' : State} {a : Nat} {v : Byte} (hw : Memory.wf s.mem)
    (h : memWrite s a v = .ok s') : Memory.wf s'.mem := by
  obtain ⟨ha, rfl⟩ := memWrite_spec h
  exact Memory.store_wf hw v ha

/-- Placing bytes from outside keeps the canonical form. -/
theorem placeBytes_wf {m : Memory} (h : Memory.wf m) (a : Nat) (bs : List Byte) :
    Memory.wf (placeBytes m a bs) := by
  induction bs generalizing m a with
  | nil => exact h
  | cons v vs ih =>
    unfold placeBytes
    split
    · rename_i ha; exact ih (Memory.store_wf h v ha) _
    · exact ih h _

/-- What placed bytes read as: byte `k` at address `a + k` if that address exists, else as before. -/
theorem lookup_placeBytes (m : Memory) (a : Nat) (bs : List Byte) (x : Nat) :
    Memory.lookup (placeBytes m a bs) x =
      if h : a ≤ x ∧ x < a + bs.length ∧ x < Config.memSize then bs[x - a] else Memory.lookup m x := by
  induction bs generalizing m a with
  | nil =>
    rw [dif_neg (by simp; omega)]; rfl
  | cons v vs ih =>
    unfold placeBytes
    rw [ih]
    by_cases hx : a = x
    · subst hx
      by_cases ha : a < Config.memSize
      · rw [dif_neg (by omega), dif_pos ⟨le_rfl, by simp, ha⟩]; simp [ha]
      · rw [dif_neg (by omega), dif_neg (by omega)]; simp [ha]
    · by_cases hr : a + 1 ≤ x ∧ x < a + 1 + vs.length ∧ x < Config.memSize
      · rw [dif_pos hr, dif_pos (by simp; omega)]
        have : x - a = (x - (a + 1)) + 1 := by omega
        simp [this]
      · rw [dif_neg hr, dif_neg (by simp only [List.length_cons]; omega)]
        split <;> simp [hx]

/-- Memory right after reset has the canonical form. -/
theorem reset_memory_wf : Memory.wf State.reset.mem := by simp [State.reset, Memory.wf]

/-! ### Reading through the state -/

@[simp] theorem State.byteAt_setReg (s : State) (r v a) : (s.setReg r v).byteAt a = s.byteAt a := rfl
@[simp] theorem State.byteAt_emitOut (s : State) (v a) : (emitOut v s).byteAt a = s.byteAt a := rfl
@[simp] theorem State.byteAt_emitDiag (s : State) (k a) : (emitDiag k s).byteAt a = s.byteAt a := rfl
@[simp] theorem State.byteAt_halt (s : State) (a) : (halt s).byteAt a = s.byteAt a := rfl
@[simp] theorem State.byteAt_raise (s : State) (e a) : (raise e s).byteAt a = s.byteAt a := rfl
@[simp] theorem State.byteAt_advance (s : State) (oc spc a) :
    (advance oc spc s).byteAt a = s.byteAt a := rfl

@[simp] theorem State.byteAt_store (s : State) (a b : Nat) (v : Byte) :
    ({ s with mem := Memory.store s.mem a v } : State).byteAt b = if a = b then v else s.byteAt b :=
  Memory.lookup_store s.mem a b v

/-- `MemRead` in range answers the byte. -/
theorem memRead_ok {s : State} {a : Nat} (h : a < Config.memSize) : memRead s a = .ok (s.byteAt a) := by
  simp [memRead, State.byteAt, h]

/-- `MemWrite` in range answers the state with that byte replaced. -/
theorem memWrite_ok {s : State} {a : Nat} (v : Byte) (h : a < Config.memSize) :
    memWrite s a v = .ok { s with mem := Memory.store s.mem a v } := by
  simp [memWrite, h]

end Sys2Proof.Machine
end

