-- ==== Sys2Proof/Laws/Ops.lean ====
section
/-! SUPPORT. One lemma per shared operation that says everything it can do: checking register operands,
concluding an instruction, the program counter, the stack pointer's arithmetic, PUSH's write, POP's
increment, and the fetch. -/

namespace Sys2Proof.Machine

/-! ### Register operands -/

theorem registerOperand_ok {a : Byte} (h : a.toNat < 8) : registerOperand a = .ok ⟨a.toNat, h⟩ := by
  simp [registerOperand, h]

theorem registerOperand_error {a : Byte} (h : ¬a.toNat < 8) :
    registerOperand a = .error .outOfBounds := by
  simp [registerOperand, h]

theorem validRegister_iff (a : Byte) : validRegister a = true ↔ a.toNat < 8 := by
  simp [validRegister]

/-- An instruction over one register either runs its rest on that register or raises OutOfBounds. -/
theorem withRegister_cases (a : Byte) (k : Fin 8 → Except FatalError State) :
    (∃ h : a.toNat < 8, withRegister a k = k ⟨a.toNat, h⟩) ∨
      (¬a.toNat < 8 ∧ withRegister a k = .error .outOfBounds) := by
  by_cases h : a.toNat < 8
  · exact .inl ⟨h, by simp [withRegister, registerOperand_ok h]⟩
  · exact .inr ⟨h, by simp [withRegister, registerOperand_error h]⟩

theorem withRegister_ok {a : Byte} (h : a.toNat < 8) (k : Fin 8 → Except FatalError State) :
    withRegister a k = k ⟨a.toNat, h⟩ := by
  simp [withRegister, registerOperand_ok h]

theorem withRegister_error {a : Byte} (h : ¬a.toNat < 8) (k : Fin 8 → Except FatalError State) :
    withRegister a k = .error .outOfBounds := by
  simp [withRegister, registerOperand_error h]

theorem withRegisters_ok {a b : Byte} (ha : a.toNat < 8) (hb : b.toNat < 8)
    (k : Fin 8 → Fin 8 → Except FatalError State) :
    withRegisters a b k = k ⟨a.toNat, ha⟩ ⟨b.toNat, hb⟩ := by
  simp [withRegisters, withRegister_ok ha, withRegister_ok hb]

theorem withRegisters_error {a b : Byte} (h : ¬(a.toNat < 8 ∧ b.toNat < 8))
    (k : Fin 8 → Fin 8 → Except FatalError State) :
    withRegisters a b k = .error .outOfBounds := by
  by_cases ha : a.toNat < 8
  · simp [withRegisters, withRegister_ok ha, withRegister_error (fun hb => h ⟨ha, hb⟩)]
  · simp [withRegisters, withRegister_error ha]

/-! ### Concluding an instruction -/

@[simp] theorem conclude_ok (s s' : State) : conclude s (.ok s') = .next s' := rfl
@[simp] theorem conclude_error (s : State) (e : FatalError) :
    conclude s (.error e) = .next (raise e s) := rfl

/-- Concluding always gives a next state: the instruction's own, or the fatal error taken on the state
from before it. -/
theorem conclude_cases (s : State) (r : Except FatalError State) :
    (∃ s', r = .ok s' ∧ conclude s r = .next s') ∨
      (∃ e, r = .error e ∧ conclude s r = .next (raise e s)) := by
  cases r with
  | ok s' => exact .inl ⟨s', rfl, rfl⟩
  | error e => exact .inr ⟨e, rfl, rfl⟩

/-! ### The program counter -/

theorem nextPc_le (oc : OperandCount) (spc : Bool) (pc : Byte) : nextPc oc spc pc ≤ 258 := by
  have := pc.isLt
  unfold nextPc
  cases oc <;> simp only [OperandCount.toNat] <;> split <;> omega

theorem wrapPc_of_lt {n : Nat} (h : n < 256) : wrapPc n = BitVec.ofNat 8 n := by
  simp [wrapPc, h]

theorem wrapPc_of_ge {n : Nat} (h : 256 ≤ n) : wrapPc n = 0 := by
  simp [wrapPc, h]

/-! ### The stack pointer's arithmetic -/

theorem pushPointer_toNat (sp : Byte) : (pushPointer sp).toNat = sp.toNat - 1 := by
  have := sp.isLt
  simp [pushPointer]; omega

theorem pushOverflows_iff (sp : Byte) : pushOverflows sp = true ↔ sp = 0 :=
  decide_eq_true_iff

theorem popUnderflows_iff (sp : Byte) : popUnderflows sp = true ↔ 0xF4 ≤ sp.toNat := by
  have h : Config.stackStart.toNat = 0xF4 := rfl
  rw [popUnderflows, decide_eq_true_iff, h]
  omega

theorem popPointer_toNat (sp : Byte) :
    (popPointer sp).toNat = if 0xF4 ≤ sp.toNat then 0xF4 else sp.toNat + 1 := by
  have := sp.isLt
  unfold popPointer
  by_cases h : 0xF4 ≤ sp.toNat
  · rw [if_pos ((popUnderflows_iff sp).2 h), if_pos h]; rfl
  · rw [if_neg (mt (popUnderflows_iff sp).1 h), if_neg h]
    simp only [BitVec.toNat_ofNat]; omega

/-! ### PUSH's write and POP's increment -/

/-- The write of a PUSH always succeeds, since the decremented pointer is an address. -/
theorem pushByte_eq (ra : Fin 8) (s : State) :
    pushByte ra s = .ok { s.setReg 7 (pushPointer s.sp) with
      mem := Memory.store s.mem (pushPointer s.sp).toNat ((s.setReg 7 (pushPointer s.sp)).reg ra) } := by
  have hs : (s.setReg Config.spIndex (pushPointer s.sp)).sp = pushPointer s.sp := by
    simp [State.sp]
  simp only [pushByte, hs]
  rw [memWrite_ok _ (pushPointer s.sp).isLt]
  rfl

/-- Everything POP's increment does. -/
theorem popIncrement_eq (s : State) :
    popIncrement s = { s.setReg 7 (popPointer s.sp) with
      diag := s.diag ++ (if 0xF4 ≤ s.sp.toNat then [.stackUnderflow] else []) } := by
  unfold popIncrement
  by_cases h : 0xF4 ≤ s.sp.toNat
  · rw [if_pos ((popUnderflows_iff s.sp).2 h), if_pos h]; rfl
  · rw [if_neg (mt (popUnderflows_iff s.sp).1 h), if_neg h, List.append_nil]; rfl

/-! ### Fetch -/

/-- The bytes the fetch looks at, by where the program counter stands. -/
theorem bytesAt_eq (m : Memory) (a : Nat) :
    bytesAt m a =
      if a + 2 < 256 then [Memory.lookup m a, Memory.lookup m (a + 1), Memory.lookup m (a + 2)]
      else if a + 1 < 256 then [Memory.lookup m a, Memory.lookup m (a + 1)]
      else if a < 256 then [Memory.lookup m a]
      else [] := by
  have hr : List.range maxInstrBytes = [0, 1, 2] := rfl
  unfold bytesAt
  rw [hr]
  by_cases h0 : a < 256 <;> by_cases h1 : a + 1 < 256 <;> by_cases h2 : a + 2 < 256 <;>
    first
      | omega
      | simp [h0, h1, h2]

/-- The first byte the fetch looks at is the opcode byte; the program counter is always an address. -/
theorem bytesAt_pc (s : State) : ∃ rest, bytesAt s.mem s.pc.toNat = s.opcode :: rest := by
  have := s.pc.isLt
  rw [bytesAt_eq]
  split
  · exact ⟨_, rfl⟩
  · split
    · exact ⟨_, rfl⟩
    · exact ⟨_, rfl⟩

end Sys2Proof.Machine
end

