-- ==== Sys2Proof/Laws/Decode.lean ====
section
/-! SUPPORT. The decoder's lemmas: what an opcode and the bytes after it give, by how many bytes there are,
and which fatal error the fetch takes. -/

namespace Sys2Proof

/-- The opcode of an instruction, its operand bytes left out. -/
def Instr.opcodeOf : Instr → Opcode
  | .hlt oc => .hlt oc
  | .ldi _ _ => .ldi
  | .prn _ => .prn
  | .push _ => .push
  | .pop _ => .pop
  | .add oc spc _ _ => .add oc spc
  | .mul oc spc _ _ => .mul oc spc

/-- The decode function reads every field of an ALU opcode byte back. -/
theorem decodeOpcode_aluByte (oc : OperandCount) (spc : Bool) :
    decodeOpcode (opcodeByte oc.field true spc Config.addId) = .ok (.add oc spc) ∧
      decodeOpcode (opcodeByte oc.field true spc Config.mulId) = .ok (.mul oc spc) := by
  cases oc <;> cases spc <;> exact ⟨rfl, rfl⟩

/-- The decode function reads the operand count of a HLT byte back. -/
theorem decodeOpcode_hltByte (oc : OperandCount) :
    decodeOpcode (opcodeByte oc.field false false Config.hltId) = .ok (.hlt oc) := by
  cases oc <;> rfl

/-- The opcode byte of an instruction decodes to that instruction's opcode. -/
theorem decodeOpcode_opcodeByte (i : Instr) : decodeOpcode i.opcodeByte = .ok i.opcodeOf := by
  cases i with
  | hlt oc => exact decodeOpcode_hltByte oc
  | ldi => show decodeOpcode (opcodeByte 2 false false Config.ldiId) = .ok .ldi; rfl
  | prn => show decodeOpcode (opcodeByte 1 false false Config.prnId) = .ok .prn; rfl
  | push => show decodeOpcode (opcodeByte 1 false false Config.pushId) = .ok .push; rfl
  | pop => show decodeOpcode (opcodeByte 1 false false Config.popId) = .ok .pop; rfl
  | add oc spc => exact (decodeOpcode_aluByte oc spc).1
  | mul oc spc => exact (decodeOpcode_aluByte oc spc).2

/-- An instruction reads as many operand bytes as its opcode says. -/
theorem Instr.operands_length (i : Instr) : i.operands.length = i.opcodeOf.operandBytes := by
  cases i <;> rfl

/-- `withOperands` answers `i` exactly on `i`'s own opcode with `i`'s operand bytes in front. -/
theorem withOperands_ok_iff (op : Opcode) (bs : List Byte) (i : Instr) :
    withOperands op bs = .ok i ↔ op = i.opcodeOf ∧ ∃ rest, bs = i.operands ++ rest := by
  rcases bs with _ | ⟨a, _ | ⟨b, bs⟩⟩ <;> cases op <;> cases i <;>
    simp [withOperands, Instr.opcodeOf, Instr.operands, eq_comm] <;> tauto

/-- `withOperands` fails only for want of bytes, and then by that name. -/
theorem withOperands_error_iff (op : Opcode) (bs : List Byte) (e : DecodeError) :
    withOperands op bs = .error e ↔ e = .missingOperand ∧ bs.length < op.operandBytes := by
  rcases bs with _ | ⟨a, _ | ⟨b, bs⟩⟩ <;> cases op <;>
    simp [withOperands, Opcode.operandBytes, eq_comm]

/-- The decode function never complains of missing bytes: its errors are the five causes of
UnsupportedOpcode. -/
theorem fatalOf_decodeOpcode {ir : Byte} {e : DecodeError} (h : decodeOpcode ir = .error e) :
    Machine.fatalOf e = .unsupportedOpcode := by
  unfold decodeOpcode at h
  simp only [dispatchEntry] at h
  repeat' split at h
  all_goals first
    | cases h; rfl
    | cases h

namespace Machine

/-- How many bytes the fetch sees: all that exist in memory, at most three. -/
theorem bytesAt_length (m : Memory) (a : Nat) : (bytesAt m a).length = min 3 (256 - a) := by
  rw [bytesAt_eq]
  repeat' split
  all_goals simp
  all_goals omega

/-- Byte `k` the fetch sees is the byte at `a + k`. -/
theorem bytesAt_getElem (m : Memory) (a k : Nat) (h : k < (bytesAt m a).length) :
    (bytesAt m a)[k] = Memory.lookup m (a + k) := by
  have hl := bytesAt_length m a
  have hk : k < 3 := by omega
  have ha : a + k < 256 := by omega
  have he := bytesAt_eq m a
  interval_cases k <;> simp only [he] <;> repeat' split
  all_goals first
    | rfl
    | omega

/-- What the fetch answers, by the opcode byte at the program counter. -/
theorem fetch_cases (s : State) :
    (∃ e, decodeOpcode s.opcode = .error e ∧ fetch s = .error .unsupportedOpcode) ∨
      (∃ op, decodeOpcode s.opcode = .ok op ∧
        ((256 ≤ s.pc.toNat + op.operandBytes ∧ fetch s = .error .outOfBounds) ∨
          (s.pc.toNat + op.operandBytes < 256 ∧ ∃ i, op = i.opcodeOf ∧ fetch s = .ok i))) := by
  obtain ⟨rest, hb⟩ := bytesAt_pc s
  have hl := bytesAt_length s.mem s.pc.toNat
  have hp := s.pc.isLt
  rw [hb] at hl
  simp only [List.length_cons] at hl
  have hop : ∀ op : Opcode, op.operandBytes ≤ 2 := by intro op; cases op <;> simp [Opcode.operandBytes]
  cases hd : decodeOpcode s.opcode with
  | error e =>
    refine .inl ⟨e, rfl, ?_⟩
    simp [fetch, hb, decode, hd, fatalOf_decodeOpcode hd]
  | ok op =>
    refine .inr ⟨op, rfl, ?_⟩
    have := hop op
    cases hw : withOperands op rest with
    | error e =>
      obtain ⟨rfl, hlt⟩ := (withOperands_error_iff op rest e).1 hw
      exact .inl ⟨by omega, by simp [fetch, hb, decode, hd, hw, fatalOf]⟩
    | ok i =>
      have hi := (withOperands_ok_iff op rest i).1 hw
      have hlen : op.operandBytes ≤ rest.length := by
        by_contra hn
        have he := (withOperands_error_iff op rest .missingOperand).2 ⟨rfl, by omega⟩
        rw [hw] at he; cases he
      exact .inr ⟨by omega, i, hi.1, by simp [fetch, hb, decode, hd, hw]⟩

end Machine

end Sys2Proof
end

