-- ==== Sys2Proof/Laws/Instr.lean ====
section
/-! SUPPORT. What each meaning can do, in terms of the shared operations, one inversion lemma per meaning;
and what a step can do. Later proofs cite these and do not unfold exec or step. -/

namespace Sys2Proof.Machine

/-! ### Each meaning, on valid and on invalid register operands -/

theorem execHlt_eq (oc : OperandCount) (s : State) : execHlt oc s = .next (halt s) := rfl

theorem execLdi_ok {a : Byte} (imm : Byte) (s : State) (ha : a.toNat < 8) :
    execLdi a imm s = .next (advance .two false (s.setReg ⟨a.toNat, ha⟩ imm)) := by
  rw [execLdi, withRegister_ok ha]; rfl

theorem execPrn_ok {a : Byte} (s : State) (ha : a.toNat < 8) :
    execPrn a s = .next (advance .one false (emitOut (s.reg ⟨a.toNat, ha⟩) s)) := by
  rw [execPrn, withRegister_ok ha]; rfl

theorem execAdd_ok (oc : OperandCount) (spc : Bool) {a b : Byte} (s : State) (ha : a.toNat < 8)
    (hb : b.toNat < 8) :
    execAdd oc spc a b s = .next (advance oc spc (s.setReg ⟨a.toNat, ha⟩
      (addResult (s.reg ⟨a.toNat, ha⟩) (s.reg ⟨b.toNat, hb⟩)))) := by
  rw [execAdd, aluOperation, withRegisters_ok ha hb]; rfl

theorem execMul_ok (oc : OperandCount) (spc : Bool) {a b : Byte} (s : State) (ha : a.toNat < 8)
    (hb : b.toNat < 8) :
    execMul oc spc a b s = .next (advance oc spc (s.setReg ⟨a.toNat, ha⟩
      (mulResult (s.reg ⟨a.toNat, ha⟩) (s.reg ⟨b.toNat, hb⟩)))) := by
  rw [execMul, aluOperation, withRegisters_ok ha hb]; rfl

/-- PUSH at the floor. -/
theorem execPush_floor {a : Byte} {s : State} (ha : a.toNat < 8) (hs : s.sp = 0) :
    execPush a s = .next (advance .one false (emitDiag .stackOverflow s)) := by
  rw [execPush, withRegister_ok ha, if_pos ((pushOverflows_iff s.sp).2 hs)]; rfl

/-- PUSH away from the floor: decrement, then the write of the register read after the decrement. -/
theorem execPush_store {a : Byte} {s : State} (ha : a.toNat < 8) (hs : s.sp ≠ 0) :
    execPush a s = .next (advance .one false { s.setReg 7 (pushPointer s.sp) with
      mem := Memory.store s.mem (pushPointer s.sp).toNat
        ((s.setReg 7 (pushPointer s.sp)).reg ⟨a.toNat, ha⟩) }) := by
  rw [execPush, withRegister_ok ha, if_neg (mt (pushOverflows_iff s.sp).1 hs)]
  simp only [pushByte_eq]
  rfl

/-- POP: the byte at the old pointer to the register, then the increment. -/
theorem execPop_ok {a : Byte} (s : State) (ha : a.toNat < 8) :
    execPop a s = .next (advance .one false
      (popIncrement (s.setReg ⟨a.toNat, ha⟩ (s.byteAt s.sp.toNat)))) := by
  rw [execPop, withRegister_ok ha, memRead_ok s.sp.isLt]; rfl

/-- A register operand above 7 makes any instruction raise OutOfBounds and do nothing else. -/
theorem exec_of_bad_register (i : Instr) (s : State) (h : ∃ a ∈ i.registerOperands, ¬a.toNat < 8) :
    exec i s = .next (raise .outOfBounds s) := by
  cases i <;> simp only [Instr.registerOperands, List.mem_cons, List.not_mem_nil, or_false,
    exists_eq_or_imp, exists_eq_left, false_and, exists_false] at h
  case ldi a imm => simp [exec, execLdi, withRegister_error h]
  case prn a => simp [exec, execPrn, withRegister_error h]
  case push a => simp [exec, execPush, withRegister_error h]
  case pop a => simp [exec, execPop, withRegister_error h]
  case add oc spc a b =>
    simp [exec, execAdd, aluOperation, withRegisters_error (a := a) (b := b) (by tauto)]
  case mul oc spc a b =>
    simp [exec, execMul, aluOperation, withRegisters_error (a := a) (b := b) (by tauto)]

/-- What an instruction with valid register operands leaves, in the model's own operations. -/
inductive Effect (s : State) : Instr → State → Prop where
  | hlt (oc) : Effect s (.hlt oc) (halt s)
  | ldi (a imm) (ha : a.toNat < 8) :
      Effect s (.ldi a imm) (advance .two false (s.setReg ⟨a.toNat, ha⟩ imm))
  | prn (a) (ha : a.toNat < 8) :
      Effect s (.prn a) (advance .one false (emitOut (s.reg ⟨a.toNat, ha⟩) s))
  | pushFloor (a) (ha : a.toNat < 8) (hs : s.sp = 0) :
      Effect s (.push a) (advance .one false (emitDiag .stackOverflow s))
  | pushStore (a) (ha : a.toNat < 8) (hs : s.sp ≠ 0) :
      Effect s (.push a) (advance .one false { s.setReg 7 (pushPointer s.sp) with
        mem := Memory.store s.mem (pushPointer s.sp).toNat
          ((s.setReg 7 (pushPointer s.sp)).reg ⟨a.toNat, ha⟩) })
  | pop (a) (ha : a.toNat < 8) :
      Effect s (.pop a) (advance .one false
        (popIncrement (s.setReg ⟨a.toNat, ha⟩ (s.byteAt s.sp.toNat))))
  | add (oc spc a b) (ha : a.toNat < 8) (hb : b.toNat < 8) :
      Effect s (.add oc spc a b) (advance oc spc (s.setReg ⟨a.toNat, ha⟩
        (addResult (s.reg ⟨a.toNat, ha⟩) (s.reg ⟨b.toNat, hb⟩))))
  | mul (oc spc a b) (ha : a.toNat < 8) (hb : b.toNat < 8) :
      Effect s (.mul oc spc a b) (advance oc spc (s.setReg ⟨a.toNat, ha⟩
        (mulResult (s.reg ⟨a.toNat, ha⟩) (s.reg ⟨b.toNat, hb⟩))))

/-- What executing an instruction can do: OutOfBounds on a bad register operand, else its effect. -/
theorem exec_cases (i : Instr) (s : State) :
    ((∃ a ∈ i.registerOperands, ¬a.toNat < 8) ∧ exec i s = .next (raise .outOfBounds s)) ∨
      ((∀ a ∈ i.registerOperands, a.toNat < 8) ∧ ∃ t, exec i s = .next t ∧ Effect s i t) := by
  by_cases h : ∃ a ∈ i.registerOperands, ¬a.toNat < 8
  · exact .inl ⟨h, exec_of_bad_register i s h⟩
  · have hv : ∀ a ∈ i.registerOperands, a.toNat < 8 := fun a ha => by
      by_contra hn; exact h ⟨a, ha, hn⟩
    refine .inr ⟨hv, ?_⟩
    cases i with
    | hlt oc => exact ⟨_, rfl, .hlt oc⟩
    | ldi a imm =>
      have ha := hv a (by simp [Instr.registerOperands])
      exact ⟨_, execLdi_ok imm s ha, .ldi a imm ha⟩
    | prn a =>
      have ha := hv a (by simp [Instr.registerOperands])
      exact ⟨_, execPrn_ok s ha, .prn a ha⟩
    | push a =>
      have ha := hv a (by simp [Instr.registerOperands])
      by_cases hs : s.sp = 0
      · exact ⟨_, execPush_floor ha hs, .pushFloor a ha hs⟩
      · exact ⟨_, execPush_store ha hs, .pushStore a ha hs⟩
    | pop a =>
      have ha := hv a (by simp [Instr.registerOperands])
      exact ⟨_, execPop_ok s ha, .pop a ha⟩
    | add oc spc a b =>
      have ha := hv a (by simp [Instr.registerOperands])
      have hb := hv b (by simp [Instr.registerOperands])
      exact ⟨_, execAdd_ok oc spc s ha hb, .add oc spc a b ha hb⟩
    | mul oc spc a b =>
      have ha := hv a (by simp [Instr.registerOperands])
      have hb := hv b (by simp [Instr.registerOperands])
      exact ⟨_, execMul_ok oc spc s ha hb, .mul oc spc a b ha hb⟩

/-! ### The step -/

theorem step_halted {s : State} (h : s.run = .halted) : step s = .next s := by
  simp [step, h]

theorem step_running {s : State} (h : s.run = .running) :
    step s = match fetch s with
      | .ok i => exec i s
      | .error e => .next (raise e s) := by
  cases hf : fetch s <;> simp [step, h, hf]

theorem fetch_ok_iff (s : State) (i : Instr) :
    fetch s = .ok i ↔ decode (bytesAt s.mem s.pc.toNat) = .ok i := by
  unfold fetch
  split <;> simp_all

/-- The fetch depends on memory and the program counter alone. -/
theorem fetch_congr {s s' : State} (hm : s'.mem = s.mem) (hp : s'.pc = s.pc) : fetch s' = fetch s := by
  simp only [fetch, hm, hp]

/-- A step that executes an instruction, from what it depends on to choose it. -/
theorem step_of_fetch_ok {s s' : State} {i : Instr} (hm : s'.mem = s.mem) (hp : s'.pc = s.pc)
    (hr : s'.run = .running) (h : fetch s = .ok i) : step s' = exec i s' := by
  rw [step_running hr, fetch_congr hm hp, h]

/-- A step that takes a fatal error of the fetch. -/
theorem step_of_fetch_error {s s' : State} {e : FatalError} (hm : s'.mem = s.mem) (hp : s'.pc = s.pc)
    (hr : s'.run = .running) (h : fetch s = .error e) : step s' = .next (raise e s') := by
  rw [step_running hr, fetch_congr hm hp, h]

/-- What a step can do: nothing when Halted; else take the fetch's fatal error or execute the fetched
instruction. -/
theorem step_cases (s : State) :
    (s.run = .halted ∧ step s = .next s) ∨
      (s.run = .running ∧
        ((∃ e, fetch s = .error e ∧ step s = .next (raise e s)) ∨
          (∃ i, fetch s = .ok i ∧ step s = exec i s))) := by
  cases h : s.run with
  | halted => exact .inl ⟨rfl, step_halted h⟩
  | running =>
    refine .inr ⟨rfl, ?_⟩
    rw [step_running h]
    cases hf : fetch s with
    | error e => exact .inl ⟨e, rfl, rfl⟩
    | ok i => exact .inr ⟨i, rfl, rfl⟩

end Sys2Proof.Machine
end

