-- ==== Sys2Proof/Laws/Output.lean ====
section
/-! SUPPORT. The text of the output: how it grows with the `OUT` stream, and that it depends on nothing
else of the state. -/

namespace Sys2Proof.Machine

/-- The characters of a numeral are the decimal digits of the value. -/
theorem outputNumeral_toList (v : Byte) : (outputNumeral v).toList = Nat.toDigits 10 v.toNat := by
  simp [outputNumeral, Nat.repr, ToString.toString]

@[simp] theorem renderOutput_nil : renderOutput [] = "" := rfl

@[simp] theorem renderOutput_append (vs ws : List Byte) :
    renderOutput (vs ++ ws) = renderOutput vs ++ renderOutput ws := by
  induction vs with
  | nil => simp
  | cons v vs ih => simp [renderOutput, ih, String.append_assoc]

theorem State.outputText_congr {s t : State} (h : t.out = s.out) : t.outputText = s.outputText := by
  simp [State.outputText, h]

/-- One more `OUT` value adds its line at the end of the text. -/
theorem State.outputText_of_out {s t : State} {v : Byte} (h : t.out = s.out ++ [v]) :
    t.outputText = s.outputText ++ outputLine v := by
  simp [State.outputText, h, renderOutput]

end Sys2Proof.Machine
end

