-- ==== Sys2Proof/Laws/PerInstr.lean ====
section
/-! SUPPORT. The family EncodingShape: what the encoding of every instruction looks like, constructor by
constructor (30_encoding.md rules R80, R81 and R113). -/

namespace Sys2Proof.Laws.EncodingShape

/-- The encoding is the opcode byte and the operand bytes the instruction reads, at most three bytes, and
the opcode byte's `operand_count` and `sets_pc` fields are the instruction's own. -/
def Statement (i : Instr) : Prop :=
  encode i = i.opcodeByte :: i.operands ∧ (encode i).length = 1 + i.opcodeOf.operandBytes ∧
    (encode i).length ≤ maxInstrBytes ∧
    ocField i.opcodeByte = i.oc.field ∧ spcField i.opcodeByte = i.spc

theorem hlt (oc : OperandCount) : Statement (.hlt oc) := by
  refine ⟨rfl, rfl, Nat.le_add_left 1 2, ?_⟩
  show ocField (opcodeByte oc.field false false Config.hltId) = oc.field ∧
    spcField (opcodeByte oc.field false false Config.hltId) = false
  cases oc <;> exact ⟨rfl, rfl⟩

theorem ldi (a imm : Byte) : Statement (.ldi a imm) :=
  ⟨rfl, rfl, le_refl 3, by show ocField 0x82 = 2; decide,
    by show spcField 0x82 = false; decide⟩

theorem prn (a : Byte) : Statement (.prn a) :=
  ⟨rfl, rfl, Nat.le_succ 2, by show ocField 0x47 = 1; decide,
    by show spcField 0x47 = false; decide⟩

theorem push (a : Byte) : Statement (.push a) :=
  ⟨rfl, rfl, Nat.le_succ 2, by show ocField 0x45 = 1; decide,
    by show spcField 0x45 = false; decide⟩

theorem pop (a : Byte) : Statement (.pop a) :=
  ⟨rfl, rfl, Nat.le_succ 2, by show ocField 0x46 = 1; decide,
    by show spcField 0x46 = false; decide⟩

theorem add (oc : OperandCount) (spc : Bool) (a b : Byte) : Statement (.add oc spc a b) := by
  refine ⟨rfl, rfl, le_refl 3, ?_⟩
  show ocField (opcodeByte oc.field true spc Config.addId) = oc.field ∧
    spcField (opcodeByte oc.field true spc Config.addId) = spc
  cases oc <;> cases spc <;> exact ⟨rfl, rfl⟩

theorem mul (oc : OperandCount) (spc : Bool) (a b : Byte) : Statement (.mul oc spc a b) := by
  refine ⟨rfl, rfl, le_refl 3, ?_⟩
  show ocField (opcodeByte oc.field true spc Config.mulId) = oc.field ∧
    spcField (opcodeByte oc.field true spc Config.mulId) = spc
  cases oc <;> cases spc <;> exact ⟨rfl, rfl⟩

end Sys2Proof.Laws.EncodingShape
end

