-- ==== Sys2Proof/Machine/ProgramFile.lean ====
section
/-! DEFINITION. Two notations outside the core: the program file format of the external loader
(30_encoding.md rule R94, outside the scope by rule R4 (a), stated "for completeness") and the assembly
notation of rule R93, which is descriptive only. The machine uses neither. -/

namespace Sys2Proof.Machine

/-- One character of a binary literal. -/
def binaryDigit : Char → Option Nat
  | '0' => some 0
  | '1' => some 1
  | _ => none

/-- The number an ASCII binary literal spells, its leftmost character the highest bit (rule R94). -/
def binaryLiteral (acc : Nat) : List Char → Option Nat
  | [] => some acc
  | c :: cs =>
    match binaryDigit c with
    | some d => binaryLiteral (2 * acc + d) cs
    | none => none

/-- What one line of a program file is. -/
inductive ProgramLine where
  /-- Empty, or starting with `#`: skipped. -/
  | skipped
  /-- One byte of the program. -/
  | byte (b : Byte)
  /-- Neither: the format gives such a line no meaning (log entry 20). -/
  | malformed
  deriving DecidableEq, Repr

/-- Read one line: its leading 8 characters are the literal, what follows them is ignored (rule R94). -/
def programLine : List Char → ProgramLine
  | [] => .skipped
  | c :: cs =>
    if c = '#' then .skipped
    else if (c :: cs).length < 8 then .malformed
    else
      match binaryLiteral 0 ((c :: cs).take 8) with
      | some n => .byte (BitVec.ofNat 8 n)
      | none => .malformed

/-- The flat program image of a file's lines, or none if a line is malformed (log entry 20). -/
def programImage : List (List Char) → Option (List Byte)
  | [] => some []
  | l :: ls =>
    match programLine l, programImage ls with
    | .skipped, img => img
    | .byte b, some img => some (b :: img)
    | .byte _, none => none
    | .malformed, _ => none

/-- A register in assembly text: `R` and its decimal index (rule R93). -/
def registerName (a : Byte) : String := "R" ++ toString a.toNat

/-- The assembly text of an instruction (rule R93). -/
def assemblyText : Instr → String
  | .hlt _ => "HLT"
  | .ldi a imm => "LDI " ++ registerName a ++ "," ++ toString imm.toNat
  | .prn a => "PRN " ++ registerName a
  | .push a => "PUSH " ++ registerName a
  | .pop a => "POP " ++ registerName a
  | .add _ _ a b => "ADD " ++ registerName a ++ "," ++ registerName b
  | .mul _ _ a b => "MUL " ++ registerName a ++ "," ++ registerName b

/-- The bytes an assembler emits: the canonical encoding and the operand bytes (rule R93). -/
def assemble (i : Instr) : List Byte := encode i.canonical

end Sys2Proof.Machine
end

