-- ==== Sys2Proof/Tests/Slice0.lean ====
section
/-! SUPPORT. The model's own tests: the smoke test of WellFormed, the decoder on words written out from the
spec's encodings, at most two vectors of 95_test_vectors.md per instruction, and for every statement with
hypotheses a named witness that meets them. Expected results are the spec's, never the model's. -/

namespace Sys2Proof.Tests

open Sys2Proof.Machine

/-! ### Helpers -/

/-- A start state of the vectors: reset values, but for the program counter, the bytes there, register
writes and memory writes. -/
def start (pc : Byte) (bytes : List Byte) (regs : List (Fin 8 × Byte) := [])
    (mem : List (Nat × Byte) := []) : State :=
  let s : State := { State.reset with
    pc := pc
    mem := placeBytes (mem.foldl (fun m c => Memory.store m c.1 c.2) []) pc.toNat bytes }
  regs.foldl (fun s r => s.setReg r.1 r.2) s

/-- Whether an outcome is a next state with a property. -/
def gives (o : Host.Outcome State Fault Refusal) (p : State → Bool) : Bool :=
  match o with
  | .next t => p t
  | .fault _ => false
  | .refused _ => false

/-- Whether an outcome is exactly this fatal error taken on `s`: nothing but `RUN` and `ERR` changed. -/
def raises (o : Host.Outcome State Fault Refusal) (e : FatalError) (s : State) : Bool :=
  gives o fun t => t = { s with run := .halted, err := some e }

/-! ### Configuration (rule R6) -/

theorem test_widths_are_the_parameters :
    Byte = BitVec Config.cellBits ∧ Byte = BitVec Config.xlen ∧ Byte = BitVec Config.pcBits ∧
      Byte = BitVec Config.flBits ∧ Config.memSize = 2 ^ Config.pcBits ∧ Config.nregs = 8 :=
  ⟨rfl, rfl, rfl, rfl, rfl, rfl⟩

/-! ### WellFormed smoke: one ill-formed term per register operand, and the largest valid one -/

theorem test_wellFormed_refuses_ldi : (Instr.ldi 8 1).wellFormed = false := by decide
theorem test_wellFormed_refuses_prn : (Instr.prn 9).wellFormed = false := by decide
theorem test_wellFormed_refuses_push : (Instr.push 8).wellFormed = false := by decide
theorem test_wellFormed_refuses_pop : (Instr.pop 255).wellFormed = false := by decide
theorem test_wellFormed_refuses_add_a : (Instr.add .two false 8 0).wellFormed = false := by decide
theorem test_wellFormed_refuses_add_b : (Instr.add .two false 0 8).wellFormed = false := by decide
theorem test_wellFormed_refuses_mul_b : (Instr.mul .zero true 0 255).wellFormed = false := by decide
theorem test_wellFormed_accepts :
    (Instr.add .two false 7 7).wellFormed = true ∧ (Instr.ldi 7 255).wellFormed = true ∧
      (Instr.hlt .one).wellFormed = true := by decide

/-! ### Decode: words written out from rules R81 to R91 -/

theorem test_decode_hlt : decode [0b00000001] = .ok (.hlt .zero) := by decide
theorem test_decode_hlt_aliases :
    decode [0b01000001] = .ok (.hlt .one) ∧ decode [0b10000001] = .ok (.hlt .two) := by decide
theorem test_decode_ldi : decode [0b10000010, 3, 255] = .ok (.ldi 3 255) := by decide
theorem test_decode_prn : decode [0b01000111, 9, 1] = .ok (.prn 9) := by decide
theorem test_decode_push : decode [0b01000101, 2] = .ok (.push 2) := by decide
theorem test_decode_pop : decode [0b01000110, 7] = .ok (.pop 7) := by decide
theorem test_decode_add : decode [0b10100000, 0, 1] = .ok (.add .two false 0 1) := by decide
theorem test_decode_add_aliases :
    decode [0b00100000, 4, 5] = .ok (.add .zero false 4 5) ∧
      decode [0b01110000, 4, 5] = .ok (.add .one true 4 5) := by decide
theorem test_decode_mul : decode [0b10100010, 6, 1] = .ok (.mul .two false 6 1) := by decide
theorem test_decode_mul_aliases :
    decode [0b01100010, 4, 5] = .ok (.mul .one false 4 5) ∧
      decode [0b10110010, 4, 5] = .ok (.mul .two true 4 5) := by decide

/-- Vectors T-DEC-4, 6, 7, 9, 16, 17, 18, 19, 20, 21, 22, 23. -/
theorem test_decode_rejects_by_name :
    decodeOpcode 0xC1 = .error .operandCountThree ∧ decodeOpcode 0x42 = .error .wrongOperandCount ∧
      decodeOpcode 0x02 = .error .wrongOperandCount ∧ decodeOpcode 0x87 = .error .wrongOperandCount ∧
      decodeOpcode 0xE0 = .error .operandCountThree ∧ decodeOpcode 0xA1 = .error .unregisteredAluId ∧
      decodeOpcode 0xA3 = .error .unregisteredAluId ∧ decodeOpcode 0x11 = .error .setsPcClass ∧
      decodeOpcode 0x54 = .error .setsPcClass ∧ decodeOpcode 0x00 = .error .unregisteredId ∧
      decodeOpcode 0x48 = .error .unregisteredId ∧ decodeOpcode 0xFF = .error .operandCountThree := by
  decide

theorem test_decode_missing_bytes :
    decode [] = .error .noOpcode ∧ decode [0xA0, 1] = .error .missingOperand ∧
      decode [0xA5] = .error .unregisteredAluId := by decide

/-- Rule R93: an assembler emits the canonical encoding. -/
theorem test_assemble_canonical :
    assemble (.mul .zero true 1 2) = [0xA2, 1, 2] ∧ encode (.mul .zero true 1 2) = [0x32, 1, 2] := by
  decide

/-- A row of the opcode table: operand bytes of zeros follow the opcode byte. -/
theorem test_table_word : decodeTableWord 8 0xB0 = some (.add .two true 0 0) := by decide

/-! ### Instructions: vectors of 95_test_vectors.md -/

/-- T-SEQ-2 and T-SEQ-3: HLT in the last cells reads no operand and does not wrap. -/
theorem test_hlt_at_the_top :
    gives (step (start 255 [0x01])) (fun t => t = { start 255 [0x01] with run := .halted }) ∧
      gives (step (start 254 [0x81])) (fun t => t = { start 254 [0x81] with run := .halted }) := by
  decide

/-- T-LDI-3 and T-LDI-6. -/
theorem test_ldi :
    gives (step (start 0 [0x82, 7, 1])) (fun t => t.reg 7 = 1 ∧ t.pc = 3) ∧
      gives (step (start 253 [0x82, 0, 0x2A])) (fun t => t.reg 0 = 0x2A ∧ t.pc = 0) := by
  decide

/-- T-LDI-4 and T-LDI-7. -/
theorem test_ldi_out_of_bounds :
    raises (step (start 0 [0x82, 8, 1])) .outOfBounds (start 0 [0x82, 8, 1]) ∧
      raises (step (start 254 [0x82, 0])) .outOfBounds (start 254 [0x82, 0]) := by
  decide

/-- T-PRN-3 and T-PRN-5. -/
theorem test_prn :
    gives (step (start 0 [0x47, 7])) (fun t => t.out = [244] ∧ t.pc = 2) ∧
      gives (step (start 254 [0x47, 0] [(0, 9)])) (fun t => t.out = [9] ∧ t.pc = 0) := by
  decide

/-- T-PRN-4 and T-PRN-6. -/
theorem test_prn_out_of_bounds :
    raises (step (start 0 [0x47, 9])) .outOfBounds (start 0 [0x47, 9]) ∧
      raises (step (start 255 [0x47])) .outOfBounds (start 255 [0x47]) := by
  decide

/-- The document's outputs 8 and 30 (rule R173), and the ends of the range by decision D16. -/
theorem test_outputNumeral :
    outputNumeral 8 = "8" ∧ outputNumeral 30 = "30" ∧ outputNumeral 0 = "0" ∧ outputNumeral 255 = "255" := by
  decide

/-- T-ALU-2, T-ALU-5 and T-ALU-16. -/
theorem test_add :
    gives (step (start 0 [0xA0, 0, 1] [(0, 200), (1, 100)])) (fun t => t.reg 0 = 44 ∧ t.pc = 3) ∧
      gives (step (start 0 [0xA0, 2, 2] [(2, 0x90)])) (fun t => t.reg 2 = 0x20) ∧
      gives (step (start 0 [0x20, 0, 1] [(0, 3), (1, 4)])) (fun t => t.reg 0 = 7 ∧ t.pc = 1) := by
  decide

/-- T-ALU-18 (its first step) and T-ALU-19. -/
theorem test_add_alias_and_fault :
    gives (step (start 0 [0xB0, 0, 1] [(0, 3), (1, 4)])) (fun t => t.reg 0 = 7 ∧ t.pc = 0) ∧
      raises (step (start 254 [0xA0, 0])) .outOfBounds (start 254 [0xA0, 0]) := by
  decide

/-- T-ALU-9 and T-ALU-10. -/
theorem test_mul :
    gives (step (start 0 [0xA2, 0, 0] [(0, 255)])) (fun t => t.reg 0 = 1 ∧ t.pc = 3) ∧
      gives (step (start 0 [0xA2, 0, 1] [(0, 44), (1, 100)])) (fun t => t.reg 0 = 48) := by
  decide

/-- T-ALU-14. -/
theorem test_mul_out_of_bounds :
    raises (step (start 0 [0xA2, 0, 0xFF])) .outOfBounds (start 0 [0xA2, 0, 0xFF]) := by decide

/-- T-STK-6, T-STK-7 and T-STK-12. -/
theorem test_push :
    gives (step (start 0 [0x45, 0] [(0, 0x55), (7, 1)]))
        (fun t => t.reg 7 = 0 ∧ t.byteAt 0 = 0x55 ∧ t.diag = [] ∧ t.pc = 2) ∧
      gives (step (start 0 [0x45, 7])) (fun t => t.reg 7 = 0xF3 ∧ t.byteAt 0xF3 = 0xF3) ∧
      gives (step (start 0 [0x45, 0] [(0, 0x66), (7, 0xFF)]))
        (fun t => t.reg 7 = 0xFE ∧ t.byteAt 0xFE = 0x66 ∧ t.diag = []) := by
  decide

/-- T-STK-5 and T-STK-13. -/
theorem test_push_at_the_floor :
    gives (step (start 0 [0x45, 0] [(0, 0x55), (7, 0)]))
        (fun t => t.reg 7 = 0 ∧ t.byteAt 0 = 0x45 ∧ t.byteAt 0xFF = 0 ∧
          t.diag = [.stackOverflow] ∧ t.pc = 2 ∧ t.run = .running) ∧
      raises (step (start 0 [0x45, 9] [(7, 0)])) .outOfBounds (start 0 [0x45, 9] [(7, 0)]) := by
  decide

/-- T-STK-2, T-STK-8 and T-STK-11. -/
theorem test_pop :
    gives (step (start 10 [0x46, 0] [(7, 0xF2)] [(0xF2, 9)]))
        (fun t => t.reg 0 = 9 ∧ t.reg 7 = 0xF3 ∧ t.byteAt 0xF2 = 9 ∧ t.diag = [] ∧ t.pc = 12) ∧
      gives (step (start 0 [0x46, 7] [(7, 0xF3)] [(0xF3, 0x10)]))
        (fun t => t.reg 7 = 0x11 ∧ t.diag = []) ∧
      gives (step (start 0 [0x46, 0] [(7, 0)])) (fun t => t.reg 0 = 0x46 ∧ t.reg 7 = 1) := by
  decide

/-- T-STK-4, T-STK-9 and T-STK-10. -/
theorem test_pop_underflow :
    gives (step (start 0 [0x46, 0]))
        (fun t => t.reg 0 = 0 ∧ t.reg 7 = 0xF4 ∧ t.diag = [.stackUnderflow] ∧ t.pc = 2 ∧
          t.run = .running) ∧
      gives (step (start 0 [0x46, 7] [(7, 0xF3)] [(0xF3, 0xF4)]))
        (fun t => t.reg 7 = 0xF4 ∧ t.diag = [.stackUnderflow]) ∧
      gives (step (start 0 [0x46, 0] [(7, 0xFF)] [(0xFF, 0x77)]))
        (fun t => t.reg 0 = 0x77 ∧ t.reg 7 = 0xF4 ∧ t.diag = [.stackUnderflow]) := by
  decide

/-- T-SEQ-4, T-SEQ-5 and T-SEQ-8. -/
theorem test_unsupported_opcode :
    raises (step (start 255 [0xA5])) .unsupportedOpcode (start 255 [0xA5]) ∧
      raises (step State.reset) .unsupportedOpcode State.reset ∧
      raises (step (start 0 [0x90, 0, 0])) .unsupportedOpcode (start 0 [0x90, 0, 0]) := by
  decide

/-- T-SEQ-7. -/
theorem test_halted_step_changes_nothing :
    gives (step (halt (start 0 [0x01]))) (fun t => t = halt (start 0 [0x01])) := by decide

/-- T-RST-3: the launch state of program P1. -/
theorem test_launch :
    (launch [0x82, 0x00, 0x08, 0x47, 0x00, 0x01]).mem =
      [(0, 0x82), (2, 0x08), (3, 0x47), (5, 0x01)] := by decide

/-- Rule R94: lines of a program file. -/
theorem test_program_lines :
    programLine ['#', ' ', 'x'] = .skipped ∧ programLine [] = .skipped ∧
      programLine ['1', '0', '0', '0', '0', '0', '1', '0', ' ', '#'] = .byte 0x82 ∧
      programLine ['1', '0'] = .malformed := by decide

/-! ### Witnesses: a state and operands that meet each statement's hypotheses together -/

theorem witness_DecodeInvertsEncode :
    decode [0xA0, 7, 255, 9] = .ok (.add .two false 7 255) ∧
      [0xA0, 7, 255, 9] = encode (.add .two false 7 255) ++ [9] := by decide

theorem witness_OpcodeMapIsTheGrid :
    (0xB2, Opcode.mul .two true) ∈ opcodeGrid ∧ decodeOpcode 0xB2 = .ok (.mul .two true) := by decide

theorem witness_UnregisteredAluIdRaisesUnsupportedOpcode :
    (start 255 [0xA1]).run = .running ∧ (start 255 [0xA1]).opcode.toNat / 32 % 2 = 1 ∧
      (start 255 [0xA1]).opcode.toNat % 16 ≠ 0b0000 ∧
      (start 255 [0xA1]).opcode.toNat % 16 ≠ 0b0010 := by decide

theorem witness_ReservedOpcodesRaiseUnsupportedOpcode :
    (start 0 [0xC0]).run = .running ∧ 192 ≤ (start 0 [0xC0]).opcode.toNat ∧
      ((start 0 [0x9F]).opcode.toNat / 32 % 2 = 0 ∧ (start 0 [0x9F]).opcode.toNat / 16 % 2 = 1) ∧
      ((start 0 [0x8F]).opcode.toNat / 32 % 2 = 0 ∧
        (start 0 [0x8F]).opcode.toNat % 16 ∉ [0b0001, 0b0010, 0b0111, 0b0101, 0b0110]) ∧
      (start 0 [0x86]).opcode ∈ ([0x02, 0x42, 0x07, 0x87, 0x05, 0x85, 0x06, 0x86] : List Byte) := by
  decide

theorem witness_StepRunsTheDecodedInstruction :
    (start 0 [0x82, 3, 9]).run = .running ∧
      decode (bytesAt (start 0 [0x82, 3, 9]).mem (start 0 [0x82, 3, 9]).pc.toNat) =
        .ok (.ldi 3 9) := by decide

theorem witness_StepRunsTheInstructionEncodedInMemory :
    (start 253 [0x82, 3, 9]).run = .running ∧
      (start 253 [0x82, 3, 9]).pc.toNat + (encode (.ldi 3 9)).length ≤ 256 ∧
      ∀ k (h : k < (encode (.ldi 3 9)).length),
        (start 253 [0x82, 3, 9]).byteAt ((start 253 [0x82, 3, 9]).pc.toNat + k) =
          (encode (.ldi 3 9))[k] := by
  refine ⟨by decide, by decide, fun k h => ?_⟩
  have h3 : k < 3 := h
  interval_cases k <;> rfl

theorem witness_OpcodeFetchReadsCurrentMemory :
    ∃ t, memWrite (start 255 []) (start 255 []).pc.toNat 0x01 = .ok t := ⟨_, rfl⟩

theorem witness_OperandFetchPastTheTopRaisesOutOfBounds :
    ((start 254 [0x82, 0]).run = .running ∧ decodeOpcode (start 254 [0x82, 0]).opcode = .ok .ldi ∧
      256 ≤ (start 254 [0x82, 0]).pc.toNat + Opcode.ldi.operandBytes) ∧
    (decodeOpcode (start 255 [0x47]).opcode = .ok .prn ∧
      256 ≤ (start 255 [0x47]).pc.toNat + Opcode.prn.operandBytes) := by decide

theorem witness_HaltedIsTerminal : (halt (start 0 [0x01])).run = .halted := rfl

theorem witness_StepHasThreeOutcomes :
    (start 0 [0x82, 0, 8]).run = .running ∧
      gives (step (start 0 [0x82, 0, 8])) (fun t => t.run = .running ∧ t.err = none) ∧
      gives (step (start 0 [0x01])) (fun t => t = halt (start 0 [0x01])) ∧
      raises (step (start 0 [0x47, 8])) .outOfBounds (start 0 [0x47, 8]) := by decide

theorem witness_ProgramCounterFollowsTheTable :
    (start 253 [0x82, 0, 8]).run = .running ∧
      gives (step (start 253 [0x82, 0, 8])) (fun t => t.run = .running ∧ t.pc = 0) ∧
      gives (step (start 252 [0x82, 0, 8])) (fun t => t.run = .running ∧ t.pc = 255) ∧
      gives (step (start 253 [0x60, 0, 1])) (fun t => t.run = .running ∧ t.pc = 255) ∧
      gives (step (start 9 [0x01])) (fun t => t.run = .halted ∧ t.pc = 9) := by decide

theorem witness_UnsupportedOpcodeExactlyOutsideTheGrid :
    State.reset.run = .running ∧ State.reset.err = none ∧
      raises (step State.reset) .unsupportedOpcode State.reset := by decide

theorem witness_OutOfBoundsExactlyWhenARangeIsLeft :
    ((start 255 [0x45]).run = .running ∧ (start 255 [0x45]).err = none ∧
      raises (step (start 255 [0x45])) .outOfBounds (start 255 [0x45]) ∧
      raises (step (start 0 [0x45, 8])) .outOfBounds (start 0 [0x45, 8])) ∧
      256 < (List.replicate 257 (0 : Byte)).length :=
  ⟨by decide, by rw [List.length_replicate]; exact Nat.lt_succ_self 256⟩

theorem witness_HltByteHaltsAtEveryAddress :
    (start 255 [0x81]).run = .running ∧ (start 255 [0x81]).opcode.toNat % 64 = 0b000001 ∧
      (start 255 [0x81]).opcode.toNat / 64 ≠ 3 ∧
      (start 0 [0x91]).opcode ∈ ([0x21, 0x61, 0xA1, 0x11, 0x51, 0x91] : List Byte) := by decide

theorem witness_LdiLoadsTheImmediate :
    (7 : Byte).toNat < 8 ∧ (start 253 []).pc.toNat ≤ 253 := by decide

theorem witness_LdiByteLoadsOrRaises :
    (start 253 [0x82, 7, 1]).run = .running ∧ (start 253 [0x82, 7, 1]).opcode = 0x82 ∧
      (start 254 [0x82, 7]).opcode = 0x82 := by decide

theorem witness_PrnEmitsTheRegister : (7 : Byte).toNat < 8 ∧ (start 254 []).pc.toNat ≤ 254 := by decide

theorem witness_LdiThenPrnOutputsTheImmediate :
    (7 : Byte).toNat < 8 ∧ (start 251 []).pc.toNat ≤ 251 := by decide

theorem witness_OutputTextGrowsByOneLinePerPrn :
    ((7 : Byte).toNat < 8 ∧ (start 254 []).pc.toNat ≤ 254) ∧
      (∃ t, step (start 0 [0x01]) = .next t) ∧ decodeOpcode (start 0 [0x01]).opcode ≠ .ok .prn ∧
      (halt (start 0 [0x47])).run = .halted := ⟨by decide, ⟨_, rfl⟩, by decide, rfl⟩

theorem witness_AddWritesTheSumModulo256 :
    (7 : Byte).toNat < 8 ∧ (0 : Byte).toNat < 8 ∧ (start 253 []).pc.toNat ≤ 253 := by decide

theorem witness_MulWritesTheProductModulo256 :
    (0 : Byte).toNat < 8 ∧ (7 : Byte).toNat < 8 ∧ (start 253 []).pc.toNat ≤ 253 := by decide

theorem witness_ArithmeticHasNoSign :
    (200 : Byte).toNat + (55 : Byte).toNat < 256 ∧ (15 : Byte).toNat * (17 : Byte).toNat < 256 := by
  decide

theorem witness_AluAliasWithSetsPcRunsForEver :
    (start 0 [0xB0, 0, 1]).run = .running ∧ (0 : Byte).toNat < 8 ∧ (1 : Byte).toNat < 8 ∧
      decode (bytesAt (start 0 [0xB0, 0, 1]).mem 0) = .ok (.add .two true 0 1) ∧
      decode (bytesAt (start 0 [0x32, 0, 1]).mem 0) = .ok (.mul .zero true 0 1) := by decide

theorem witness_PushStoresBelowTheStackPointer :
    (7 : Byte).toNat < 8 ∧ (start 254 [0x45, 7] [(7, 1)]).pc.toNat ≤ 254 ∧
      (start 254 [0x45, 7] [(7, 1)]).reg 7 ≠ 0 ∧ (start 254 [0x45, 7] [(7, 255)]).reg 7 ≠ 0 := by
  decide

theorem witness_PushAtTheFloorOnlyReports :
    (0 : Byte).toNat < 8 ∧ (start 0 [0x45, 0] [(7, 0)]).pc.toNat ≤ 254 ∧
      (start 0 [0x45, 0] [(7, 0)]).reg 7 = 0 := by decide

/-- At the bound, for an ordinary register and for register 7. -/
theorem witness_PopLoadsFromTheStackPointer :
    (start 0 [0x46, 0] [(7, 0xF3)]).pc.toNat ≤ 254 ∧
      (if (0 : Byte) = 7 then (start 0 [0x46, 0] [(7, 0xF3)]).byteAt 0xF3
        else (start 0 [0x46, 0] [(7, 0xF3)]).reg 7).toNat + 1 ≤ 0xF4 ∧
      (if (7 : Byte) = 7 then (start 0 [0x46, 7] [(7, 0xFF)] [(0xFF, 0xF3)]).byteAt 0xFF
        else (start 0 [0x46, 7] [(7, 0xFF)] [(0xFF, 0xF3)]).reg 7).toNat + 1 ≤ 0xF4 := by decide

theorem witness_PopPastTheBoundResetsTheStackPointer :
    (start 0 [0x46, 0]).pc.toNat ≤ 254 ∧
      0xF4 < (if (0 : Byte) = 7 then (start 0 [0x46, 0]).byteAt 0xF4
        else (start 0 [0x46, 0]).reg 7).toNat + 1 ∧
      0xF4 < (if (7 : Byte) = 7 then (start 0 [0x46, 7] [(7, 9)] [(9, 0xF4)]).byteAt 9
        else (start 0 [0x46, 7] [(7, 9)] [(9, 0xF4)]).reg 7).toNat + 1 := by decide

/-- At both ends of the range, with the pop following the push at once. -/
theorem witness_PushThenPopRoundTrips :
    (0 : Byte).toNat < 8 ∧ (2 : Byte).toNat < 8 ∧ (2 : Byte) ≠ 7 ∧
      (1 ≤ ((start 0 [0x45, 0] [(7, 1)]).reg 7).toNat ∧
        ((start 0 [0x45, 0] [(7, 1)]).reg 7).toNat ≤ 0xF4 ∧
        ∃ t u : State, exec (.push 0) (start 0 [0x45, 0] [(7, 1)]) = .next t ∧ u.reg 7 = t.reg 7 ∧
          u.byteAt (t.reg 7).toNat = t.byteAt (t.reg 7).toNat) ∧
      (1 ≤ ((start 0 [0x45, 0]).reg 7).toNat ∧ ((start 0 [0x45, 0]).reg 7).toNat ≤ 0xF4 ∧
        ∃ t u : State, exec (.push 0) (start 0 [0x45, 0]) = .next t ∧ u.reg 7 = t.reg 7 ∧
          u.byteAt (t.reg 7).toNat = t.byteAt (t.reg 7).toNat) :=
  ⟨by decide, by decide, by decide, ⟨by decide, by decide, _, _, rfl, rfl, rfl⟩,
    ⟨by decide, by decide, _, _, rfl, rfl, rfl⟩⟩

theorem witness_StackPointerStaysInRange :
    (StackPointerInRange (start 0 [0x46, 0]) ∧ ∃ t, step (start 0 [0x46, 0]) = .next t) ∧
      (∃ i, decode (bytesAt (start 0 [0x46, 0]).mem 0) = .ok i ∧ destination i ≠ some 7) ∧
      (∃ t, exec (.pop 0) (start 0 [0x46, 0] [(7, 0xFF)]) = .next t) := by
  refine ⟨⟨?_, _, rfl⟩, ⟨.pop 0, by decide, by decide⟩, _, rfl⟩
  show (0xF4 : Byte) ≤ 0xF4
  decide

theorem witness_PushedByteIsFetchedNext :
    ((start 0 [0x45, 0] [(0, 0x01), (7, 3)]).reg 7 ≠ 0) ∧
      gives (exec (.push 0) (start 0 [0x45, 0] [(0, 0x01), (7, 3)]))
        (fun t => t.pc.toNat = 3 - 1 ∧ t.opcode = 0x01) := by decide

theorem witness_RegisterIndexDecidesOutOfBounds :
    (∃ a ∈ (Instr.add .two false 7 8).registerOperands, 8 ≤ a.toNat) ∧
      (∀ a ∈ (Instr.add .two false 7 7).registerOperands, a.toNat < 8) := by decide

theorem witness_LdiAddMulChangeOnlyTheirDestination :
    (∃ t, exec (.ldi 7 1) State.reset = .next t) ∧
      (∃ t, exec (.add .two false 0 1) State.reset = .next t) ∧
      ∃ t, exec (.mul .one true 0 8) State.reset = .next t := ⟨⟨_, rfl⟩, ⟨_, rfl⟩, _, rfl⟩

theorem witness_HltAndPrnWriteNoRegister :
    (∃ t, exec (.hlt .two) State.reset = .next t) ∧ (∃ t, exec (.prn 7) State.reset = .next t) ∧
      ∃ t, exec (.prn 8) State.reset = .next t := ⟨⟨_, rfl⟩, ⟨_, rfl⟩, _, rfl⟩

theorem witness_PushChangesOnlyTheStack :
    (∃ t, exec (.push 7) State.reset = .next t) ∧
      (∃ t, exec (.push 0) (start 0 [] [(7, 0)]) = .next t) ∧ (start 0 [] [(7, 0)]).sp = 0 :=
  ⟨⟨_, rfl⟩, ⟨_, rfl⟩, rfl⟩

theorem witness_PopChangesNoMemory :
    (∃ t, exec (.pop 7) State.reset = .next t) ∧ ∃ t, exec (.pop 0) State.reset = .next t :=
  ⟨⟨_, rfl⟩, _, rfl⟩

theorem witness_OnlyPushWritesMemory :
    gives (step (start 0 [0x45, 0] [(0, 5)]))
      (fun t => t.byteAt 0xF3 ≠ (start 0 [0x45, 0] [(0, 5)]).byteAt 0xF3) := by decide

theorem witness_FlagsRegisterIsInert : ∃ t, step { State.reset with fl := 9 } = .next t := ⟨_, rfl⟩

/-- One event of each kind, none with a fatal error. -/
theorem witness_StreamsAreAppendOnlyAndUnread :
    gives (step (start 0 [0x47, 7])) (fun t => t.out = [244] ∧ t.diag = []) ∧
      gives (step (start 0 [0x45, 0] [(7, 0)])) (fun t => t.diag = [.stackOverflow]) ∧
      gives (step (start 0 [0x46, 0])) (fun t => t.diag = [.stackUnderflow]) ∧
      gives (step (start 0 [0x47, 8])) (fun t => t.err ≠ none ∧ t.out = []) := by decide

theorem witness_StepKeepsTheInvariant :
    MachineInv (start 0 [0x45, 0] [(0, 5)]) ∧ ∃ t, step (start 0 [0x45, 0] [(0, 5)]) = .next t :=
  ⟨⟨by decide, rfl, fun h => absurd rfl h⟩, _, rfl⟩

theorem witness_LoadPlacesTheImage :
    (List.replicate 256 (0x01 : Byte)).length ≤ 256 ∧ 256 < (List.replicate 257 (0x01 : Byte)).length := by
  rw [List.length_replicate, List.length_replicate]
  exact ⟨le_rfl, Nat.lt_succ_self 256⟩

theorem witness_MemoryReturnsTheLastWrite :
    (255 : Nat) < 256 ∧ ([0x01] : List Byte).length ≤ 256 := by decide

theorem witness_OnlyOperandReadsCanLeaveMemory :
    255 < 256 ∧ State.reset.sp ≠ 0 ∧ 1 ≤ 2 ∧
      memRead (start 255 []) ((start 255 []).pc.toNat + 1) = .error .outOfBounds := by decide

theorem witness_CanonicalMemoryIsUnique :
    Memory.wf [(0, 0x82), (255, 0x01)] ∧
      ∀ a, Memory.lookup [(0, 0x82), (255, 0x01)] a = Memory.lookup [(0, 0x82), (255, 0x01)] a :=
  ⟨by decide, fun _ => rfl⟩

theorem witness_PlacedWordIsExecutedNext :
    (start 253 []).pc.toNat ≤ 253 ∧ decodeTableWord 24 0x0907A0 = some (.add .two false 7 9) := by decide

end Sys2Proof.Tests
end

section
/-! Inversion of `exec` and `step`: both answer a next state from every state, and that state is one of
the cases of `exec_cases` and `step_cases`. -/

namespace Sys2Proof.Machine

theorem exec_add (oc : OperandCount) (spc : Bool) (a b : Byte) (s : State) :
    exec (.add oc spc a b) s = execAdd oc spc a b s := rfl

theorem exec_mul (oc : OperandCount) (spc : Bool) (a b : Byte) (s : State) :
    exec (.mul oc spc a b) s = execMul oc spc a b s := rfl

/-- What a next state of `exec` is: the one of an OutOfBounds error, or the instruction's effect. -/
theorem exec_next {i : Instr} {s t : State} (h : exec i s = .next t) :
    t = raise .outOfBounds s ∨ Effect s i t := by
  rcases exec_cases i s with ⟨-, hx⟩ | ⟨-, u, hx, hu⟩
  · exact .inl (Host.Outcome.next.inj (h.symm.trans hx))
  · obtain rfl := Host.Outcome.next.inj (h.symm.trans hx)
    exact .inr hu

theorem exec_total (i : Instr) (s : State) : ∃ t, exec i s = .next t := by
  rcases exec_cases i s with ⟨-, hx⟩ | ⟨-, t, hx, -⟩
  · exact ⟨_, hx⟩
  · exact ⟨t, hx⟩

/-- What a next state of `step` is: the same state when Halted; when Running the state of a fatal error,
of the fetch or of the instruction, or the effect of the fetched instruction. -/
theorem step_next {s t : State} (h : step s = .next t) :
    (s.run = .halted ∧ t = s) ∨
      (s.run = .running ∧ ((∃ e, t = raise e s) ∨ ∃ i, fetch s = .ok i ∧ Effect s i t)) := by
  rcases step_cases s with ⟨hr, hx⟩ | ⟨hr, ⟨e, -, hx⟩ | ⟨i, hf, hx⟩⟩
  · exact .inl ⟨hr, Host.Outcome.next.inj (h.symm.trans hx)⟩
  · exact .inr ⟨hr, .inl ⟨e, Host.Outcome.next.inj (h.symm.trans hx)⟩⟩
  · rcases exec_next (hx.symm.trans h) with ht | he
    · exact .inr ⟨hr, .inl ⟨_, ht⟩⟩
    · exact .inr ⟨hr, .inr ⟨i, hf, he⟩⟩

theorem step_total (s : State) : ∃ t, step s = .next t := by
  rcases step_cases s with ⟨-, hx⟩ | ⟨-, ⟨e, -, hx⟩ | ⟨i, -, hx⟩⟩
  · exact ⟨_, hx⟩
  · exact ⟨_, hx⟩
  · rw [hx]; exact exec_total i s

/-- The opcode byte of a fetched instruction decodes to the instruction's opcode. -/
theorem decodeOpcode_of_fetch_ok {s : State} {i : Instr} (h : fetch s = .ok i) :
    decodeOpcode s.opcode = .ok i.opcodeOf := by
  rcases fetch_cases s with ⟨e, -, hf⟩ | ⟨op, hd, ⟨-, hf⟩ | ⟨-, j, rfl, hf⟩⟩
  · cases h.symm.trans hf
  · cases h.symm.trans hf
  · obtain rfl := Except.ok.inj (h.symm.trans hf)
    exact hd

/-- A run of `k + 1` steps is one step and then a run of `k`. -/
theorem run_succ {s t : State} (k : Nat) (h : step s = .next t) :
    Host.Core.run core (k + 1) s = Host.Core.run core k t := by
  have hcore : core.step s = .next t := h
  simp only [Host.Core.run, hcore]

/-- A predicate that every step keeps holds after any number of steps, and those steps all answer a next
state. -/
theorem run_keeps {P : State → Prop} (hstep : ∀ s t, P s → step s = .next t → P t) (k : Nat) (s : State)
    (hs : P s) : ∃ t, Host.Core.run core k s = .next t ∧ P t := by
  induction k generalizing s with
  | zero => exact ⟨s, rfl, hs⟩
  | succ k ih =>
    obtain ⟨u, hu⟩ := step_total s
    obtain ⟨t, ht, hPt⟩ := ih u (hstep s u hs hu)
    exact ⟨t, (run_succ k hu).trans ht, hPt⟩

end Sys2Proof.Machine
end

section
/-! What each effect leaves of the single fields of the state. -/

namespace Sys2Proof.Machine

/-! ### POP's increment -/

@[simp] theorem popIncrement_mem (s : State) : (popIncrement s).mem = s.mem := by
  rw [popIncrement_eq]; rfl
@[simp] theorem popIncrement_pc (s : State) : (popIncrement s).pc = s.pc := by
  rw [popIncrement_eq]; rfl
@[simp] theorem popIncrement_fl (s : State) : (popIncrement s).fl = s.fl := by
  rw [popIncrement_eq]; rfl
@[simp] theorem popIncrement_run (s : State) : (popIncrement s).run = s.run := by
  rw [popIncrement_eq]; rfl
@[simp] theorem popIncrement_err (s : State) : (popIncrement s).err = s.err := by
  rw [popIncrement_eq]; rfl
@[simp] theorem popIncrement_out (s : State) : (popIncrement s).out = s.out := by
  rw [popIncrement_eq]; rfl
@[simp] theorem popIncrement_diag (s : State) : (popIncrement s).diag =
    s.diag ++ (if 0xF4 ≤ s.sp.toNat then [.stackUnderflow] else []) := by
  rw [popIncrement_eq]

/-- POP's increment writes register 7 only. -/
@[simp] theorem popIncrement_reg (s : State) (r : Fin 8) :
    (popIncrement s).reg r = if 7 = r then popPointer s.sp else s.reg r := by
  rw [popIncrement_eq]
  exact s.reg_setReg 7 r (popPointer s.sp)

/-! ### The effects -/

section
variable {s t : State} {i : Instr}

theorem Effect.fl_eq (h : Effect s i t) : t.fl = s.fl := by
  cases h <;> simp

theorem Effect.err_eq (h : Effect s i t) : t.err = s.err := by
  cases h <;> simp

/-- The only write to memory is PUSH's, away from the floor, to the decremented stack pointer. -/
theorem Effect.mem_cases (h : Effect s i t) :
    t.mem = s.mem ∨
      ((∃ a, i = .push a) ∧ s.sp ≠ 0 ∧
        ∃ v, t.mem = Memory.store s.mem (pushPointer s.sp).toNat v) := by
  cases h
  case pushStore a ha hs => exact .inr ⟨⟨a, rfl⟩, hs, _, rfl⟩
  all_goals left; simp

theorem Effect.mem_wf (h : Effect s i t) (hw : Memory.wf s.mem) : Memory.wf t.mem := by
  rcases h.mem_cases with hm | ⟨-, -, v, hm⟩
  · rwa [hm]
  · rw [hm]; exact Memory.store_wf hw v (pushPointer s.sp).isLt

/-- A byte that an effect changes is the one PUSH writes. -/
theorem Effect.byteAt_ne (h : Effect s i t) {x : Nat} (hx : t.byteAt x ≠ s.byteAt x) :
    (∃ a, i = .push a) ∧ s.sp ≠ 0 ∧ x = (pushPointer s.sp).toNat := by
  rcases h.mem_cases with hm | ⟨hi, hs, v, hm⟩
  · exact absurd (by simp only [State.byteAt, hm]) hx
  · refine ⟨hi, hs, ?_⟩
    by_contra hne
    simp [State.byteAt, hm, Ne.symm hne] at hx

/-- An effect of LDI, ADD or MUL is one register write and the move of the program counter. -/
theorem Effect.eq_advance_setReg {a : Byte} (h : Effect s i t)
    (hi : (∃ imm, i = .ldi a imm) ∨ (∃ oc spc b, i = .add oc spc a b) ∨
      (∃ oc spc b, i = .mul oc spc a b)) :
    ∃ oc spc v, ∃ ha : a.toNat < 8, t = advance oc spc (s.setReg ⟨a.toNat, ha⟩ v) := by
  obtain ⟨imm, rfl⟩ | ⟨oc, spc, b, rfl⟩ | ⟨oc, spc, b, rfl⟩ := hi
  · cases h with | ldi _ _ ha => exact ⟨_, _, _, ha, rfl⟩
  · cases h with | add _ _ _ _ ha _ => exact ⟨_, _, _, ha, rfl⟩
  · cases h with | mul _ _ _ _ ha _ => exact ⟨_, _, _, ha, rfl⟩

end

/-! ### The program counter -/

/-- The model's two-stage program-counter update is the spec's: unchanged with `sets_pc`, else `oc + 1`
bytes on (rules R25 and R26). -/
theorem wrapPc_nextPc (oc : OperandCount) (spc : Bool) (pc : Byte) :
    wrapPc (nextPc oc spc pc) = if spc then pc else pcForward pc (oc.toNat + 1) := by
  cases spc with
  | true => simp [nextPc, wrapPc_of_lt pc.isLt]
  | false =>
    have hn : nextPc oc false pc = pc.toNat + (oc.toNat + 1) := rfl
    by_cases h : pc.toNat + (oc.toNat + 1) < 256
    · simp [hn, wrapPc_of_lt h, pcForward, h]
    · simp [hn, wrapPc_of_ge (not_lt.1 h), pcForward, h]

/-- One register write and the move of the program counter, as a record update. -/
theorem advance_setReg_eq (oc : OperandCount) (spc : Bool) (s : State) (r : Fin 8) (v : Byte) :
    advance oc spc (s.setReg r v) =
      { s with
        regs := s.regs.set r v
        pc := if spc then s.pc else pcForward s.pc (oc.toNat + 1) } := by
  rw [← wrapPc_nextPc]; rfl

end Sys2Proof.Machine
end

section
/-! The statements about the state: the invariant, ADD and MUL, the frames, and who writes memory. -/

namespace Sys2Proof.Machine

/-! ### The invariant (rule R34) -/

theorem MachineInv.raise {s : State} (h : MachineInv s) (e : FatalError) :
    MachineInv (Machine.raise e s) :=
  ⟨h.memory, h.flags, fun _ => rfl⟩

/-- A Running core with the invariant has no error. -/
theorem MachineInv.err_eq_none {s : State} (h : MachineInv s) (hr : s.run = .running) : s.err = none := by
  by_contra hn
  cases hr.symm.trans (h.error hn)

theorem MachineInv.effect {s t : State} {i : Instr} (h : MachineInv s) (hr : s.run = .running)
    (he : Effect s i t) : MachineInv t where
  memory := he.mem_wf h.memory
  flags := he.fl_eq.trans h.flags
  error hn := absurd (he.err_eq.trans (h.err_eq_none hr)) hn

theorem MachineInv.load {s : State} (h : MachineInv s) (image : List Byte) :
    MachineInv (Machine.load image s) := by
  unfold Machine.load
  split
  · exact ⟨placeBytes_wf h.memory _ image, h.flags, h.error⟩
  · exact h.raise .outOfBounds

/-- Settles O41: a fatal error leaves a Halted core, and an effect keeps memory canonical, `FL` and the
absence of an error. -/
theorem stepKeepsTheInvariant : Obligations.StepKeepsTheInvariant := by
  intro s t hs h
  rcases step_next h with ⟨-, rfl⟩ | ⟨hr, ⟨e, rfl⟩ | ⟨i, -, he⟩⟩
  · exact hs
  · exact hs.raise e
  · exact hs.effect hr he

/-- Settles O42: memory is empty, `FL` is 0 and there is no error. -/
theorem resetSatisfiesTheInvariant : Obligations.ResetSatisfiesTheInvariant :=
  ⟨reset_memory_wf, rfl, fun h => absurd rfl h⟩

/-- Settles O43, by induction on the number of steps (`run_keeps`). -/
theorem everyRunKeepsTheInvariant : Obligations.EveryRunKeepsTheInvariant := fun image k =>
  run_keeps stepKeepsTheInvariant k (launch image) (resetSatisfiesTheInvariant.load image)

/-! ### ADD and MUL -/

/-- Settles O22: the sum is `addResult`, which narrows it modulo 256. -/
theorem addWritesTheSumModulo256 : Obligations.AddWritesTheSumModulo256 := by
  intro oc spc a b s ha hb _
  rw [exec_add, execAdd_ok oc spc s ha hb, advance_setReg_eq]
  rfl

/-- Settles O23: the product is `mulResult`, which narrows it modulo 256. -/
theorem mulWritesTheProductModulo256 : Obligations.MulWritesTheProductModulo256 := by
  intro oc spc a b s ha hb _
  rw [exec_mul, execMul_ok oc spc s ha hb, advance_setReg_eq]
  rfl

/-! ### The frames -/

/-- Settles O34: all three are one register write and the move of the program counter. -/
theorem ldiAddMulChangeOnlyTheirDestination : Obligations.LdiAddMulChangeOnlyTheirDestination := by
  intro i a s t hi h
  rcases exec_next h with rfl | he
  · exact ⟨fun _ _ => rfl, fun _ => rfl, rfl, rfl, rfl, rfl, .inr rfl⟩
  · obtain ⟨oc, spc, v, ha, rfl⟩ := he.eq_advance_setReg hi
    refine ⟨fun r hr => ?_, fun _ => rfl, rfl, rfl, rfl, rfl, .inl ⟨rfl, rfl⟩⟩
    have hne : (⟨a.toNat, ha⟩ : Fin 8) ≠ r := Fin.ne_of_val_ne (Ne.symm hr)
    simp [hne]

/-- Settles O35: HLT is `halt`, and PRN's effect only emits and moves the program counter. -/
theorem hltAndPrnWriteNoRegister : Obligations.HltAndPrnWriteNoRegister := by
  rintro i s t (⟨oc, rfl⟩ | ⟨a, rfl⟩) h
  · obtain rfl := Host.Outcome.next.inj ((execHlt_eq oc s).symm.trans h)
    exact ⟨fun _ => rfl, rfl, fun _ => rfl, rfl, rfl, rfl, fun _ => rfl, fun ⟨_, h⟩ => nomatch h⟩
  · rcases exec_next h with rfl | he
    · exact ⟨fun _ => rfl, rfl, fun _ => rfl, rfl, rfl, rfl, (fun ⟨_, h⟩ => nomatch h),
        fun _ => .inr rfl⟩
    · cases he with
      | prn _ ha =>
        exact ⟨fun _ => rfl, rfl, fun _ => rfl, rfl, rfl, rfl, (fun ⟨_, h⟩ => nomatch h),
          fun _ => .inl ⟨rfl, rfl, _, rfl⟩⟩

/-- Settles O36, by PUSH's two effects: the diagnostic at the floor, the store away from it. -/
theorem pushChangesOnlyTheStack : Obligations.PushChangesOnlyTheStack := by
  intro a s t h
  rcases exec_next h with rfl | he
  · exact ⟨fun _ _ => rfl, fun _ _ => rfl, fun _ => ⟨rfl, rfl⟩, rfl, rfl, .inr rfl⟩
  · cases he with
    | pushFloor _ ha hs =>
      exact ⟨fun _ _ => rfl, fun _ _ => rfl, fun _ => ⟨rfl, rfl⟩, rfl, rfl, .inl ⟨rfl, rfl, .inr rfl⟩⟩
    | pushStore _ ha hs =>
      refine ⟨fun r hr => ?_, fun x hx => ?_, fun h0 => absurd h0 hs, rfl, rfl,
        .inl ⟨rfl, rfl, .inl rfl⟩⟩
      · exact (s.reg_setReg 7 r (pushPointer s.sp)).trans (if_neg (Ne.symm hr))
      · exact (s.byteAt_store _ x _).trans (if_neg (Ne.symm hx))

/-- Settles O37: POP writes its destination, and the increment only register 7 and `DIAG`. -/
theorem popChangesNoMemory : Obligations.PopChangesNoMemory := by
  intro a s t h
  rcases exec_next h with rfl | he
  · exact ⟨fun _ _ _ => rfl, fun _ => rfl, rfl, rfl, rfl, .inr rfl⟩
  · cases he with
    | pop _ ha =>
      refine ⟨fun r hr hr7 => ?_, fun x => ?_, by simp, by simp, by simp, .inl ⟨by simp, by simp, ?_⟩⟩
      · have hne : (⟨a.toNat, ha⟩ : Fin 8) ≠ r := Fin.ne_of_val_ne (Ne.symm hr)
        simp [hne, Ne.symm hr7]
      · simp [State.byteAt]
      · simp only [advance_diag, popIncrement_diag, State.setReg_diag]
        split
        · exact .inr rfl
        · exact .inl (List.append_nil _)

/-! ### Writes to memory -/

/-- Settles O38: no other outcome of a step than PUSH's effect changes a byte. -/
theorem onlyPushWritesMemory : Obligations.OnlyPushWritesMemory := by
  intro s t x h hx
  rcases step_next h with ⟨-, rfl⟩ | ⟨hr, ⟨e, rfl⟩ | ⟨i, hf, he⟩⟩
  · exact absurd rfl hx
  · exact absurd rfl hx
  · obtain ⟨⟨a, rfl⟩, hs, rfl⟩ := he.byteAt_ne hx
    exact ⟨hr, decodeOpcode_of_fetch_ok hf, hs, pushPointer_toNat s.sp⟩

end Sys2Proof.Machine
end

section
/-! The statements about memory: reads and writes through the state, the canonical form, the operand fetch
past the top, and the fetch of a pushed byte. -/

namespace Sys2Proof.Machine

/-! ### Reads and writes (rules R51 and R52) -/

/-- `MemRead` out of range raises OutOfBounds. -/
theorem memRead_error {s : State} {a : Nat} (h : ¬a < Config.memSize) :
    memRead s a = .error .outOfBounds := if_neg h

/-- `MemWrite` out of range raises OutOfBounds. -/
theorem memWrite_error {s : State} {a : Nat} (v : Byte) (h : ¬a < Config.memSize) :
    memWrite s a v = .error .outOfBounds := if_neg h

/-- `MemRead` depends on the byte at its address alone. -/
theorem memRead_congr {s t : State} {a : Nat} (h : t.byteAt a = s.byteAt a) :
    memRead t a = memRead s a := by
  by_cases ha : a < Config.memSize
  · rw [memRead_ok ha, memRead_ok ha, h]
  · rw [memRead_error ha, memRead_error ha]

/-- The launch state of an image that fits reads the image's bytes from address 0 up, and 0 above it. -/
theorem byteAt_launch {image : List Byte} (h : image.length ≤ Config.memSize) {a : Nat}
    (ha : a < Config.memSize) : (launch image).byteAt a = image.getD a 0 := by
  have hl : (launch image).byteAt a = Memory.lookup (placeBytes [] 0 image) a := by
    rw [launch, load, if_pos h]; rfl
  rw [hl, lookup_placeBytes]
  by_cases hi : a < image.length
  · simp [hi, ha]
  · simp [hi]

/-- Settles O46, by the laws of `Memory.store` and `placeBytes`. -/
theorem memoryReturnsTheLastWrite : Obligations.MemoryReturnsTheLastWrite := by
  refine ⟨fun s a v ha => ?_, fun a ha => memRead_ok ha, fun image a hl ha => ?_⟩
  · refine ⟨_, memWrite_ok v ha, ?_, fun b hb => ?_, rfl⟩
    · rw [memRead_ok ha, State.byteAt_store, if_pos rfl]
    · exact memRead_congr ((s.byteAt_store a b v).trans (if_neg hb.symm))
  · rw [memRead_ok ha, byteAt_launch hl ha]

/-- Settles O47: a byte is an address, and so is a byte minus 1; `pc + k` with `k ≤ 2` is one while `pc` is
below 254. -/
theorem onlyOperandReadsCanLeaveMemory : Obligations.OnlyOperandReadsCanLeaveMemory := by
  refine ⟨fun s a v ha => ?_, fun s => ⟨⟨_, memRead_ok s.pc.isLt⟩, ⟨_, memRead_ok s.sp.isLt⟩, ?_, ?_⟩⟩
  · have hout : ¬a < Config.memSize := Nat.not_lt.2 ha
    exact ⟨memRead_error hout, memWrite_error v hout⟩
  · intro _ v
    have hin : s.sp.toNat - 1 < Config.memSize := lt_of_le_of_lt (Nat.sub_le _ 1) s.sp.isLt
    exact ⟨_, memWrite_ok v hin⟩
  · intro k hk h
    by_contra hlt
    have hin : s.pc.toNat + k < 256 := by omega
    cases (memRead_ok hin).symm.trans h

/-! ### The canonical form -/

/-- An address that does not read 0 is listed with the byte it reads. -/
theorem Memory.mem_of_lookup_ne {m : Memory} {a : Nat} (h : Memory.lookup m a ≠ 0) :
    (a, Memory.lookup m a) ∈ m := by
  induction m with
  | nil => exact absurd rfl h
  | cons d m ih =>
    by_cases hd : d.1 = a
    · simp [Memory.lookup, ← hd]
    · simp only [Memory.lookup, if_neg hd] at h ⊢
      exact List.mem_cons_of_mem _ (ih h)

/-- Where addresses rise strictly, a listed address reads its listed byte. -/
theorem Memory.lookup_of_mem {m : Memory} (hm : m.Pairwise (fun c d => c.1 < d.1)) {c : Host.Cell}
    (hc : c ∈ m) : Memory.lookup m c.1 = c.2 := by
  induction m with
  | nil => cases hc
  | cons d m ih =>
    obtain ⟨hd, hm⟩ := List.pairwise_cons.1 hm
    rcases List.mem_cons.1 hc with rfl | hc
    · exact if_pos rfl
    · exact (if_neg (hd c hc).ne).trans (ih hm hc)

/-- The cells of a canonical memory are those that read as listed and not as 0. -/
theorem Memory.mem_iff_lookup {m : Memory} (h : Memory.wf m) (c : Host.Cell) :
    c ∈ m ↔ Memory.lookup m c.1 = c.2 ∧ c.2 ≠ 0 := by
  refine ⟨fun hc => ⟨Memory.lookup_of_mem h.1 hc, (h.2 c hc).2⟩, fun ⟨hl, hn⟩ => ?_⟩
  have := Memory.mem_of_lookup_ne (hl.trans_ne hn)
  rwa [hl] at this

/-- Settles O48: memories that read alike have the same cells, and strictly rising addresses leave one
order for them. -/
theorem canonicalMemoryIsUnique : Obligations.CanonicalMemoryIsUnique := by
  intro m n hm hn h
  have : Std.Irrefl fun c d : Host.Cell => c.1 < d.1 := ⟨fun c => lt_irrefl c.1⟩
  have : Std.Antisymm fun c d : Host.Cell => c.1 < d.1 := ⟨fun _ _ h h' => absurd h h'.asymm⟩
  exact hm.1.eq_of_mem_iff hn.1 fun c => by
    rw [Memory.mem_iff_lookup hm, Memory.mem_iff_lookup hn, h]

/-! ### The fetch -/

/-- Settles O10: of the three answers of the fetch only OutOfBounds is left. -/
theorem operandFetchPastTheTopRaisesOutOfBounds :
    Obligations.OperandFetchPastTheTopRaisesOutOfBounds := by
  intro s op hr hop htop
  rcases fetch_cases s with ⟨e, hd, -⟩ | ⟨op', hd, hcase⟩
  · cases hop.symm.trans hd
  · obtain rfl := Except.ok.inj (hop.symm.trans hd)
    rcases hcase with ⟨-, hf⟩ | ⟨hlt, -⟩
    · exact step_of_fetch_error rfl rfl hr hf
    · exact absurd htop hlt.not_ge

/-- Away from the floor PUSH's pointer is the old one minus 1. -/
theorem pushPointer_eq_sub_one {sp : Byte} (h : sp ≠ 0) : pushPointer sp = sp - 1 := by
  apply BitVec.eq_of_toNat_eq
  rw [pushPointer_toNat]
  bv_omega

/-- The cell a PUSH away from the floor stores reads as the register after the decrement (rule R161,
decision D26). -/
theorem byteAt_execPush {a : Byte} {s t : State} (ha : a.toNat < 8) (hs : s.sp ≠ 0)
    (h : execPush a s = .next t) :
    t.byteAt (pushPointer s.sp).toNat = (s.setReg 7 (pushPointer s.sp)).reg ⟨a.toNat, ha⟩ := by
  obtain rfl := Host.Outcome.next.inj ((execPush_store ha hs).symm.trans h)
  exact (s.byteAt_store _ _ _).trans (if_pos rfl)

/-- Settles O32: the new `pc` is the address PUSH stored to. -/
theorem pushedByteIsFetchedNext : Obligations.PushedByteIsFetchedNext := by
  intro a s t ha hs h hpc
  have hcell : t.pc.toNat = (pushPointer (s.reg 7)).toNat := hpc.trans (pushPointer_toNat _).symm
  have hidx : (7 : Fin 8) = ⟨a.toNat, ha⟩ ↔ a = 7 := by
    rw [Fin.ext_iff, ← BitVec.toNat_inj]; exact eq_comm
  calc t.opcode
      = (s.setReg 7 (pushPointer (s.reg 7))).reg ⟨a.toNat, ha⟩ := by
        rw [State.opcode, hcell]; exact byteAt_execPush ha hs h
    _ = if a = 7 then s.reg 7 - 1 else s.reg ⟨a.toNat, ha⟩ := by
        simp only [State.reg_setReg, hidx, pushPointer_eq_sub_one hs]

end Sys2Proof.Machine
end

section
/-! The statements about the encoding: the four fields of the opcode byte, the grid of opcode bytes, decode
against encode, and the reserved opcode bytes. -/

namespace Sys2Proof

/-! ### The fields of the opcode byte (rule R81) -/

/-- Settles O3: a field is a quotient of the byte's value, reduced modulo the field's size. -/
theorem opcodeFieldsLieWhereTheSpecPutsThem : Obligations.OpcodeFieldsLieWhereTheSpecPutsThem := by
  intro ir
  have bit (k : Nat) : (ir.getLsbD k).toNat = ir.toNat / 2 ^ k % 2 := Nat.toNat_testBit _ k
  refine ⟨?_, bit 5, bit 4, ?_⟩
  · have := ir.isLt
    simp only [ocField, BitVec.extractLsb'_toNat, Nat.shiftRight_eq_div_pow]
    omega
  · simp [idField]

/-- Putting one field before another multiplies its value by the size of the other. -/
theorem toNat_append_eq {m n : Nat} (x : BitVec m) (y : BitVec n) :
    (x ++ y).toNat = 2 ^ n * x.toNat + y.toNat := by
  rw [BitVec.toNat_append, ← Nat.shiftLeft_add_eq_or_of_lt y.isLt, Nat.shiftLeft_eq, Nat.mul_comm]

/-- The value of an opcode byte, field by field. -/
theorem opcodeByte_toNat (oc : BitVec 2) (alu spc : Bool) (id : BitVec 4) :
    (opcodeByte oc alu spc id).toNat =
      64 * oc.toNat + 32 * alu.toNat + 16 * spc.toNat + id.toNat := by
  rw [opcodeByte, toNat_append_eq, toNat_append_eq, toNat_append_eq, BitVec.toNat_ofBool,
    BitVec.toNat_ofBool]
  omega

/-- An opcode byte is put together from its own four fields: no bit is left out. -/
theorem opcodeByte_fields (ir : Byte) :
    opcodeByte (ocField ir) (aluField ir) (spcField ir) (idField ir) = ir := by
  obtain ⟨hoc, halu, hspc, hid⟩ := opcodeFieldsLieWhereTheSpecPutsThem ir
  apply BitVec.eq_of_toNat_eq
  rw [opcodeByte_toNat, hoc, halu, hspc, hid]
  omega

/-! ### The opcode bytes (rules R84 and R91) -/

/-- The opcode byte of an opcode, from the tables of rules R85, R86 and R87. -/
def Opcode.byte : Opcode → Byte
  | .hlt oc => opcodeByte oc.field false false Config.hltId
  | .ldi => opcodeByte OperandCount.two.field false false Config.ldiId
  | .prn => opcodeByte OperandCount.one.field false false Config.prnId
  | .push => opcodeByte OperandCount.one.field false false Config.pushId
  | .pop => opcodeByte OperandCount.one.field false false Config.popId
  | .add oc spc => opcodeByte oc.field true spc Config.addId
  | .mul oc spc => opcodeByte oc.field true spc Config.mulId

theorem Opcode.byte_opcodeOf (i : Instr) : i.opcodeOf.byte = i.opcodeByte := by
  cases i <;> rfl

theorem Opcode.exists_opcodeOf (op : Opcode) : ∃ i : Instr, i.opcodeOf = op := by
  cases op with
  | hlt oc => exact ⟨.hlt oc, rfl⟩
  | ldi => exact ⟨.ldi 0 0, rfl⟩
  | prn => exact ⟨.prn 0, rfl⟩
  | push => exact ⟨.push 0, rfl⟩
  | pop => exact ⟨.pop 0, rfl⟩
  | add oc spc => exact ⟨.add oc spc 0 0, rfl⟩
  | mul oc spc => exact ⟨.mul oc spc 0 0, rfl⟩

/-- A two-bit field stands for a count only when it is the field of that count. -/
theorem field_of_operandCount? {f : BitVec 2} {oc : OperandCount} (h : operandCount? f = some oc) :
    f = oc.field := by
  unfold operandCount? at h
  split_ifs at h with h0 h1 h2 <;> cases h <;> assumption

/-- An Instruction Dispatcher entry answers its own opcode, for the one count it is defined for. -/
theorem dispatchEntry_ok {op op' : Opcode} {want oc : OperandCount}
    (h : dispatchEntry op want oc = .ok op') : op = op' ∧ oc = want := by
  unfold dispatchEntry at h
  split at h
  next hoc => exact ⟨Except.ok.inj h, hoc⟩
  next => cases h

/-- Every field of a byte that decodes is the opcode's own: each test of rule R84 fixes one. -/
theorem byte_of_decodeOpcode_ok {ir : Byte} {op : Opcode} (h : decodeOpcode ir = .ok op) :
    ir = op.byte := by
  rw [← opcodeByte_fields ir]
  unfold decodeOpcode at h
  split at h
  next => cases h
  next oc hoc =>
    rw [field_of_operandCount? hoc]
    split_ifs at h with halu hadd hmul hspc hhlt hldi hprn hpush hpop
    · cases h; rw [halu, hadd]; rfl
    · cases h; rw [halu, hmul]; rfl
    all_goals rw [Bool.eq_false_of_not_eq_true halu, Bool.eq_false_of_not_eq_true hspc]
    · cases h; rw [hhlt]; rfl
    · obtain ⟨rfl, rfl⟩ := dispatchEntry_ok h; rw [hldi]; rfl
    · obtain ⟨rfl, rfl⟩ := dispatchEntry_ok h; rw [hprn]; rfl
    · obtain ⟨rfl, rfl⟩ := dispatchEntry_ok h; rw [hpush]; rfl
    · obtain ⟨rfl, rfl⟩ := dispatchEntry_ok h; rw [hpop]; rfl

/-- The decode function answers an opcode on that opcode's byte and no other. -/
theorem decodeOpcode_ok_iff (ir : Byte) (op : Opcode) : decodeOpcode ir = .ok op ↔ ir = op.byte := by
  refine ⟨byte_of_decodeOpcode_ok, ?_⟩
  rintro rfl
  obtain ⟨i, rfl⟩ := op.exists_opcodeOf
  rw [Opcode.byte_opcodeOf]
  exact decodeOpcode_opcodeByte i

/-- The grid of rule R91 lists every opcode with its byte. -/
theorem mem_opcodeGrid_iff (ir : Byte) (op : Opcode) :
    (ir, op) ∈ Machine.opcodeGrid ↔ ir = op.byte := by
  have rows : ∀ row ∈ Machine.opcodeGrid, row.1 = row.2.byte := by decide
  refine ⟨fun h => rows _ h, ?_⟩
  rintro rfl
  cases op with
  | hlt oc => cases oc <;> decide
  | ldi | prn | push | pop => decide
  | add oc spc | mul oc spc => cases oc <;> cases spc <;> decide

/-- Settles O2: both sides say that the byte is the opcode's. -/
theorem opcodeMapIsTheGrid : Obligations.OpcodeMapIsTheGrid := fun ir op =>
  (decodeOpcode_ok_iff ir op).trans (mem_opcodeGrid_iff ir op).symm

/-! ### Decode against encode (rules R80 and R113) -/

/-- Decode answers an instruction exactly on its opcode byte followed by its operand bytes. -/
theorem decode_cons_ok_iff (ir : Byte) (bs : List Byte) (i : Instr) :
    decode (ir :: bs) = .ok i ↔ ir = i.opcodeByte ∧ ∃ rest, bs = i.operands ++ rest := by
  rw [← Opcode.byte_opcodeOf, ← decodeOpcode_ok_iff]
  cases hd : decodeOpcode ir with
  | error e => simp [decode, hd]
  | ok op => simp only [decode, hd, withOperands_ok_iff, Except.ok.injEq]

/-- Settles O1: the opcode byte by the decode function's inverse, the operand bytes by `withOperands`. -/
theorem decodeInvertsEncode : Obligations.DecodeInvertsEncode := by
  intro bytes i
  cases bytes with
  | nil => simp [decode, encode]
  | cons ir bs => simp [decode_cons_ok_iff, encode]

/-- An encoding decodes to its instruction. -/
theorem decode_encode (i : Instr) : decode (encode i) = .ok i :=
  (decodeInvertsEncode _ i).2 ⟨[], (List.append_nil _).symm⟩

/-- Settles O4: each word is the encoding of its instruction. -/
theorem specWordsDecode : Obligations.SpecWordsDecode :=
  ⟨decode_encode (.hlt .zero), decode_encode (.ldi 0 8), decode_encode (.prn 3),
    decode_encode (.push 1), decode_encode (.pop 2), decode_encode (.add .two false 0 1),
    decode_encode (.mul .two true 4 5)⟩

namespace Machine

/-! ### The reserved opcode bytes (rules R86 and R88 to R90) -/

/-- The reserved opcode bytes: `operand_count` 3 (rule R88), the `sets_pc` class (rule R89), an unregistered
id of the Instruction Dispatcher (rule R86), a registered one with the wrong count (rule R90). -/
abbrev ReservedOpcode (ir : Byte) : Prop :=
  192 ≤ ir.toNat ∨
    (ir.toNat / 32 % 2 = 0 ∧ ir.toNat / 16 % 2 = 1) ∨
    (ir.toNat / 32 % 2 = 0 ∧ ir.toNat % 16 ∉ [0b0001, 0b0010, 0b0111, 0b0101, 0b0110]) ∨
    ir ∈ ([0x02, 0x42, 0x07, 0x87, 0x05, 0x85, 0x06, 0x86] : List Byte)

theorem not_reservedOpcode_of_mem_opcodeGrid :
    ∀ row ∈ opcodeGrid, ¬ReservedOpcode row.1 := by decide

/-- A running core whose opcode byte decodes to nothing takes UnsupportedOpcode. -/
theorem step_of_decodeOpcode_error {s : State} {e : DecodeError} (hr : s.run = .running)
    (hd : decodeOpcode s.opcode = .error e) : step s = .next (raise .unsupportedOpcode s) := by
  rcases fetch_cases s with ⟨-, -, hf⟩ | ⟨op, hop, -⟩
  · exact step_of_fetch_error rfl rfl hr hf
  · cases hd.symm.trans hop

/-- Settles O6: no row of the grid is reserved, so a reserved byte decodes to nothing. -/
theorem reservedOpcodesRaiseUnsupportedOpcode :
    Obligations.ReservedOpcodesRaiseUnsupportedOpcode := by
  intro s hr hreserved
  cases hd : decodeOpcode s.opcode with
  | error e => exact step_of_decodeOpcode_error hr hd
  | ok op =>
    exact absurd hreserved (not_reservedOpcode_of_mem_opcodeGrid _ ((opcodeMapIsTheGrid _ _).1 hd))

end Machine

end Sys2Proof
end

section
/-! The statements about the sequencer: which instruction a step executes, how the program counter moves,
the HLT byte, and what PRN, PUSH and POP leave. -/

namespace Sys2Proof.Machine

/-! ### Which instruction a step executes (rules R110, R111 and R113) -/

/-- Settles O7: the fetch answers what the decoder makes of the bytes at `pc`. -/
theorem stepRunsTheDecodedInstruction : Obligations.StepRunsTheDecodedInstruction := fun s i hr hd =>
  step_of_fetch_ok rfl rfl hr ((fetch_ok_iff s i).2 hd)

/-- Settles O9: the program counter is an address, and a write there replaces the byte the fetch reads. -/
theorem opcodeFetchReadsCurrentMemory : Obligations.OpcodeFetchReadsCurrentMemory := by
  refine ⟨fun s => ⟨memRead_ok s.pc.isLt, bytesAt_pc s⟩, fun s s' v h => ?_⟩
  obtain ⟨-, rfl⟩ := memWrite_spec h
  exact (s.byteAt_store s.pc.toNat s.pc.toNat v).trans (if_pos rfl)

theorem encode_length_le (i : Instr) : (encode i).length ≤ maxInstrBytes := by
  cases i <;> simp [encode, Instr.operands, maxInstrBytes]

/-- Bytes that stand whole in memory, no more than an instruction's, are the first ones the fetch sees. -/
theorem isPrefix_bytesAt {m : Memory} {a : Nat} {bs : List Byte} (hlen : bs.length ≤ maxInstrBytes)
    (htop : a + bs.length ≤ 256) (h : ∀ k (hk : k < bs.length), Memory.lookup m (a + k) = bs[k]) :
    bs <+: bytesAt m a := by
  have hle : bs.length ≤ (bytesAt m a).length := by
    rw [bytesAt_length, le_min_iff]
    exact ⟨hlen, by omega⟩
  refine List.prefix_iff_getElem.2 ⟨hle, fun k hk => ?_⟩
  rw [bytesAt_getElem, h k hk]

/-- Settles O8: the fetch sees the encoding first, and decode inverts encode. -/
theorem stepRunsTheInstructionEncodedInMemory : Obligations.StepRunsTheInstructionEncodedInMemory := by
  intro s i hr htop h
  obtain ⟨rest, hrest⟩ := isPrefix_bytesAt (encode_length_le i) htop h
  exact stepRunsTheDecodedInstruction s i hr ((decodeInvertsEncode _ i).2 ⟨rest, hrest.symm⟩)

theorem tableBytes_length (nbits w : Nat) : (tableBytes nbits w).length = maxInstrBytes := by
  simp [tableBytes]

theorem decode_tableBytes {nbits w : Nat} {i : Instr} (h : decodeTableWord nbits w = some i) :
    decode (tableBytes nbits w) = .ok i := by
  unfold decodeTableWord at h
  split at h
  next j hj => rw [hj, Option.some.inj h]
  next => cases h

/-- The three bytes placed at an address they fit at are the bytes the fetch sees there. -/
theorem bytesAt_placeBytes {m : Memory} {a : Nat} {bs : List Byte} (hlen : bs.length = maxInstrBytes)
    (ha : a ≤ 253) : bytesAt (placeBytes m a bs) a = bs := by
  have hlen3 : bs.length = 3 := hlen
  have hpre : bs <+: bytesAt (placeBytes m a bs) a :=
    isPrefix_bytesAt hlen.le (by omega) fun k hk => by
      rw [lookup_placeBytes, dif_pos (by simp only [Config.memSize]; omega)]
      simp
  exact (hpre.eq_of_length (by rw [bytesAt_length]; omega)).symm

/-- Settles O49: `withFetchWord` places the table's bytes at `pc` and lets the core run. -/
theorem placedWordIsExecutedNext : Obligations.PlacedWordIsExecutedNext := by
  intro s nbits w i hpc hw
  have hbytes := bytesAt_placeBytes (m := s.mem) (tableBytes_length nbits w) hpc
  refine stepRunsTheDecodedInstruction (s.withFetchWord nbits w) i rfl ?_
  exact (congrArg decode hbytes).trans (decode_tableBytes hw)

/-! ### The program counter (rule R114) -/

/-- The program counter `n` bytes on is exact below 256, and 0 from there. -/
theorem pcForward_cases (pc : Byte) (n : Nat) :
    (pc.toNat + n < 256 ∧ (pcForward pc n).toNat = pc.toNat + n) ∨
      (256 ≤ pc.toNat + n ∧ pcForward pc n = 0) := by
  by_cases h : pc.toNat + n < 256
  · exact .inl ⟨h, by rw [pcForward, if_pos h, BitVec.toNat_ofNat, Nat.mod_eq_of_lt h]⟩
  · exact .inr ⟨not_lt.1 h, if_neg h⟩

@[simp] theorem pcForward_zero (pc : Byte) : pcForward pc 0 = pc := by
  simp [pcForward, pc.isLt]

theorem operandCount_toNat_le_two (oc : OperandCount) : oc.toNat ≤ 2 := by
  cases oc <;> decide

theorem pcDistance_le (op : Opcode) : pcDistance op ≤ op.operandBytes + 1 := by
  cases op with
  | hlt | ldi | prn | push | pop => simp [pcDistance, Opcode.operandBytes]
  | add oc spc | mul oc spc =>
    cases spc with
    | true => exact Nat.zero_le _
    | false => exact Nat.succ_le_succ (operandCount_toNat_le_two oc)

/-- All operand bytes of a fetched instruction lie in memory. -/
theorem operandBytes_of_fetch_ok {s : State} {i : Instr} (h : fetch s = .ok i) :
    s.pc.toNat + i.opcodeOf.operandBytes < 256 := by
  rcases fetch_cases s with ⟨-, -, hf⟩ | ⟨-, -, ⟨-, hf⟩ | ⟨hlt, j, rfl, hf⟩⟩
  · cases h.symm.trans hf
  · cases h.symm.trans hf
  · obtain rfl := Except.ok.inj (h.symm.trans hf)
    exact hlt

/-- The move of the program counter as a record update. -/
theorem advance_eq (oc : OperandCount) (spc : Bool) (s : State) :
    advance oc spc s = { s with pc := if spc then s.pc else pcForward s.pc (oc.toNat + 1) } := by
  rw [← wrapPc_nextPc]; rfl

section
variable {s t : State} {i : Instr}

/-- Every effect moves the program counter by the distance of rule R114's table. -/
theorem Effect.pc_eq (h : Effect s i t) : t.pc = pcForward s.pc (pcDistance i.opcodeOf) := by
  cases h with
  | hlt => simp [Instr.opcodeOf, pcDistance]
  | ldi | prn | pushFloor | pushStore | pop =>
    simp [wrapPc_nextPc, Instr.opcodeOf, pcDistance, OperandCount.toNat]
  | add oc spc | mul oc spc =>
    cases spc <;> simp [wrapPc_nextPc, Instr.opcodeOf, pcDistance]

/-- HLT is the only effect on `RUN`. -/
theorem Effect.run_cases (h : Effect s i t) : ((∃ oc, i = .hlt oc) ∧ t = halt s) ∨ t.run = s.run := by
  cases h
  case hlt oc => exact .inl ⟨⟨oc, rfl⟩, rfl⟩
  all_goals right; simp

/-- An instruction with valid register operands has its effect. -/
theorem effect_of_exec (hv : ∀ a ∈ i.registerOperands, a.toNat < 8) (h : exec i s = .next t) :
    Effect s i t := by
  rcases exec_cases i s with ⟨⟨a, ha, hbad⟩, -⟩ | ⟨-, u, hx, hu⟩
  · exact absurd (hv a ha) hbad
  · obtain rfl := Host.Outcome.next.inj (h.symm.trans hx)
    exact hu

end

/-- Settles O13: an effect moves `pc` by the table's distance, which is at most one more than the operand
bytes, and those lie in memory. -/
theorem programCounterFollowsTheTable : Obligations.ProgramCounterFollowsTheTable := by
  intro s t hr h
  rcases step_next h with ⟨hh, -⟩ | ⟨-, ⟨e, rfl⟩ | ⟨i, hf, he⟩⟩
  · cases hr.symm.trans hh
  · exact ⟨fun _ => rfl, fun hrun => by cases hrun⟩
  · have hread := operandBytes_of_fetch_ok hf
    have hdist := pcDistance_le i.opcodeOf
    refine ⟨fun hhalt => ?_, fun _ => ⟨i.opcodeOf, decodeOpcode_of_fetch_ok hf, ?_, by omega⟩⟩
    · rcases he.run_cases with ⟨-, rfl⟩ | hrun
      · rfl
      · cases hhalt.symm.trans (hrun.trans hr)
    · rw [he.pc_eq]
      rcases pcForward_cases s.pc (pcDistance i.opcodeOf) with hlt | ⟨hge, hzero⟩
      · exact .inl hlt
      · exact .inr ⟨by omega, hzero⟩

/-! ### HLT (rule R117) -/

/-- A running core halts on a HLT byte, which has no operand to fetch. -/
theorem step_of_decodeOpcode_hlt {s : State} {oc : OperandCount} (hr : s.run = .running)
    (hd : decodeOpcode s.opcode = .ok (.hlt oc)) : step s = .next (halt s) := by
  rcases fetch_cases s with ⟨e, he, -⟩ | ⟨op, hop, hcase⟩
  · cases hd.symm.trans he
  · obtain rfl := Except.ok.inj (hd.symm.trans hop)
    rcases hcase with ⟨htop, -⟩ | ⟨-, i, hi, hf⟩
    · exact absurd htop (Nat.not_le.2 s.pc.isLt)
    · cases i <;> cases hi
      exact step_of_fetch_ok rfl rfl hr hf

/-- A running core raises UnsupportedOpcode on every opcode byte outside the grid of rule R91. -/
theorem step_of_not_mem_opcodeGrid {s : State} (hr : s.run = .running)
    (h : ∀ op, (s.opcode, op) ∉ opcodeGrid) : step s = .next (raise .unsupportedOpcode s) := by
  cases hd : decodeOpcode s.opcode with
  | error e => exact step_of_decodeOpcode_error hr hd
  | ok op => exact absurd ((opcodeMapIsTheGrid _ op).1 hd) (h op)

/-- The six low bits 000001 under a count other than 3 make a HLT byte (rule R87). -/
theorem decodeOpcode_of_hlt_bits {ir : Byte} (hlow : ir.toNat % 64 = 0b000001) (hcount : ir.toNat / 64 ≠ 3) :
    ∃ oc, decodeOpcode ir = .ok (.hlt oc) := by
  have hir := ir.isLt
  have hval : ir.toNat = 0x01 ∨ ir.toNat = 0x41 ∨ ir.toNat = 0x81 := by omega
  rcases hval with h | h | h
  · exact ⟨.zero, (decodeOpcode_ok_iff ir _).2 (BitVec.eq_of_toNat_eq h)⟩
  · exact ⟨.one, (decodeOpcode_ok_iff ir _).2 (BitVec.eq_of_toNat_eq h)⟩
  · exact ⟨.two, (decodeOpcode_ok_iff ir _).2 (BitVec.eq_of_toNat_eq h)⟩

/-- Settles O17: the first bytes decode to HLT, and no row of the grid is one of the others. -/
theorem hltByteHaltsAtEveryAddress : Obligations.HltByteHaltsAtEveryAddress := by
  refine fun s hr => ⟨fun hlow hcount => ?_, fun hmem => ?_⟩
  · obtain ⟨oc, hd⟩ := decodeOpcode_of_hlt_bits hlow hcount
    exact step_of_decodeOpcode_hlt hr hd
  · have hgrid : ∀ row ∈ opcodeGrid, row.1 ∉ ([0x21, 0x61, 0xA1, 0x11, 0x51, 0x91] : List Byte) := by
      decide
    exact step_of_not_mem_opcodeGrid hr fun op hrow => hgrid _ hrow hmem

/-! ### The ALU instruction with `sets_pc` (rules R118 and R121, decision D7) -/

/-- A running core at address `pc` whose next instruction is `i`. -/
structure RunsAt (i : Instr) (pc : Byte) (s : State) : Prop where
  running : s.run = .running
  pc_eq : s.pc = pc
  fetch_ok : fetch s = .ok i

section
variable {i : Instr} {pc : Byte}

/-- A step on an instruction that moves the program counter nowhere, neither halts nor writes memory, and
has valid register operands, leaves the core about to execute it again. -/
theorem RunsAt.of_step {s t : State} (hs : RunsAt i pc s) (hdist : pcDistance i.opcodeOf = 0)
    (hhlt : ∀ oc, i ≠ .hlt oc) (hpush : ∀ a, i ≠ .push a) (hv : ∀ a ∈ i.registerOperands, a.toNat < 8)
    (h : step s = .next t) : RunsAt i pc t := by
  obtain ⟨hr, rfl, hf⟩ := hs
  have he : Effect s i t := effect_of_exec hv ((step_of_fetch_ok rfl rfl hr hf).symm.trans h)
  have hrun : t.run = s.run := he.run_cases.resolve_left fun ⟨⟨oc, hi⟩, _⟩ => hhlt oc hi
  have hmem : t.mem = s.mem := he.mem_cases.resolve_right fun ⟨⟨a, hi⟩, _⟩ => hpush a hi
  have hpc : t.pc = s.pc := by rw [he.pc_eq, hdist, pcForward_zero]
  exact ⟨hrun.trans hr, hpc, (fetch_congr hmem hpc).trans hf⟩

/-- Any number of steps from a core about to execute ADD or MUL with `sets_pc` leaves it so. -/
theorem RunsAt.run_aluAlias {s : State} {oc : OperandCount} {a b : Byte} (hs : RunsAt i pc s)
    (ha : a.toNat < 8) (hb : b.toNat < 8) (hi : i = .add oc true a b ∨ i = .mul oc true a b) (k : Nat) :
    ∃ t, Host.Core.run core k s = .next t ∧ RunsAt i pc t := by
  have hv : ∀ x ∈ [a, b], x.toNat < 8 := by simp [ha, hb]
  refine run_keeps (fun u t hu => ?_) k s hs
  rcases hi with rfl | rfl
  · exact hu.of_step rfl nofun nofun hv
  · exact hu.of_step rfl nofun nofun hv

end

/-- Settles O25, by induction on the number of steps (`RunsAt.run_aluAlias`). -/
theorem aluAliasWithSetsPcRunsForEver : Obligations.AluAliasWithSetsPcRunsForEver := by
  intro k s oc a b hr ha hb hd
  obtain ⟨i, hi, hdec⟩ : ∃ i, (i = .add oc true a b ∨ i = .mul oc true a b) ∧
      decode (bytesAt s.mem s.pc.toNat) = .ok i := by
    rcases hd with hd | hd
    · exact ⟨_, .inl rfl, hd⟩
    · exact ⟨_, .inr rfl, hd⟩
  have hs : RunsAt i s.pc s := ⟨hr, rfl, (fetch_ok_iff s i).2 hdec⟩
  obtain ⟨t, ht, hrun, hpc, -⟩ := hs.run_aluAlias ha hb hi k
  exact ⟨t, ht, hrun, hpc⟩

/-! ### PRN, PUSH and POP -/

theorem exec_prn (a : Byte) (s : State) : exec (.prn a) s = execPrn a s := rfl

theorem exec_push (a : Byte) (s : State) : exec (.push a) s = execPush a s := rfl

theorem exec_pop (a : Byte) (s : State) : exec (.pop a) s = execPop a s := rfl

/-- Settles O20: PRN's effect is the emission and the move of the program counter. -/
theorem prnEmitsTheRegister : Obligations.PrnEmitsTheRegister := by
  intro a s ha _
  rw [exec_prn, execPrn_ok s ha, advance_eq]
  rfl

/-- A valid register operand is the stack pointer's index exactly when its byte is 7. -/
theorem seven_eq_index_iff {a : Byte} (ha : a.toNat < 8) : (7 : Fin 8) = ⟨a.toNat, ha⟩ ↔ a = 7 := by
  rw [Fin.ext_iff, ← BitVec.toNat_inj]; exact eq_comm

/-- The register a PUSH away from the floor stores, read after the decrement (decision D26). -/
theorem reg_setReg_pushPointer {a : Byte} {s : State} (ha : a.toNat < 8) (hs : s.reg 7 ≠ 0) :
    (s.setReg 7 (pushPointer s.sp)).reg ⟨a.toNat, ha⟩ =
      if a = 7 then s.reg 7 - 1 else s.reg ⟨a.toNat, ha⟩ := by
  simp only [State.reg_setReg, seven_eq_index_iff, State.sp_eq, pushPointer_eq_sub_one hs]

/-- Settles O26: the store's value and address are those after the decrement. -/
theorem pushStoresBelowTheStackPointer : Obligations.PushStoresBelowTheStackPointer := by
  intro a s ha _ hs
  have hx := execPush_store ha hs
  obtain ⟨hregs, hbytes, -⟩ := pushChangesOnlyTheStack a s _ hx
  have hptr : (pushPointer s.sp).toNat = (s.reg 7).toNat - 1 := pushPointer_toNat _
  refine ⟨_, (exec_push a s).trans hx, ?_, ?_, fun x hne => hbytes x (hptr ▸ hne), hregs, ?_,
    rfl, rfl, rfl, rfl, rfl⟩
  · exact (congrArg BitVec.toNat ((s.reg_setReg 7 7 _).trans (if_pos rfl))).trans hptr
  · rw [← hptr, byteAt_execPush ha hs hx, reg_setReg_pushPointer ha hs]
  · exact wrapPc_nextPc .one false s.pc

/-- The stack pointer as it stands after POP wrote its destination (decision D26). -/
theorem sp_setReg {a : Byte} (s : State) (ha : a.toNat < 8) (v : Byte) :
    (s.setReg ⟨a.toNat, ha⟩ v).sp = if a = 7 then v else s.reg 7 := by
  simp only [State.sp_eq, State.reg_setReg, eq_comm (b := (7 : Fin 8)), seven_eq_index_iff]

/-- POP as a record update, `p` being the stack pointer it increments. -/
theorem execPop_eq {a p : Byte} (s : State) (ha : a.toNat < 8)
    (hp : (if a = 7 then s.byteAt (s.reg 7).toNat else s.reg 7) = p) :
    execPop a s = .next { s with
      regs := (s.regs.set a.toNat (s.byteAt (s.reg 7).toNat)).set 7 (popPointer p)
      diag := s.diag ++ (if 0xF4 ≤ p.toNat then [.stackUnderflow] else [])
      pc := pcForward s.pc 2 } := by
  rw [← sp_setReg s ha] at hp
  rw [execPop_ok s ha, popIncrement_eq, s.sp_eq, hp, advance_eq]
  rfl

/-- Below the bound POP's pointer is the old one plus 1. -/
theorem popPointer_eq_add_one {sp : Byte} (h : ¬0xF4 ≤ sp.toNat) : popPointer sp = sp + 1 := by
  apply BitVec.eq_of_toNat_eq
  rw [popPointer_toNat, if_neg h]
  bv_omega

/-- Settles O28: at or below the bound POP adds 1 and reports nothing. -/
theorem popLoadsFromTheStackPointer : Obligations.PopLoadsFromTheStackPointer := by
  intro a s ha _ hbound
  have hlow := Nat.not_le.2 (Nat.lt_of_succ_le hbound)
  rw [exec_pop, execPop_eq s ha rfl, popPointer_eq_add_one hlow, if_neg hlow, List.append_nil]

end Sys2Proof.Machine
end

section
/-! The statements about the ALU: the opcode bytes with an unregistered ALU id, and the flags register,
which no instruction computes. -/

namespace Sys2Proof.Machine

/-! ### Unregistered ALU ids (rule R144) -/

/-- The ALU Dispatcher registers the ids of ADD and MUL only: every row of the grid with bit 5 set has one
of them (rule R85). -/
theorem aluId_of_mem_opcodeGrid : ∀ row ∈ opcodeGrid, row.1.toNat / 32 % 2 = 1 →
    row.1.toNat % 16 = 0b0000 ∨ row.1.toNat % 16 = 0b0010 := by decide

/-- Settles O5: no row of the grid has bit 5 set and another id. -/
theorem unregisteredAluIdRaisesUnsupportedOpcode :
    Obligations.UnregisteredAluIdRaisesUnsupportedOpcode := by
  intro s hr halu hadd hmul
  exact step_of_not_mem_opcodeGrid hr fun op hrow =>
    (aluId_of_mem_opcodeGrid _ hrow halu).elim hadd hmul

/-! ### The flags register (rules R27 and R143) -/

/-- An effect is the outcome of executing its instruction. -/
theorem Effect.exec_eq {s t : State} {i : Instr} (h : Effect s i t) : exec i s = .next t := by
  cases h with
  | hlt oc => exact execHlt_eq oc s
  | ldi a imm ha => exact execLdi_ok imm s ha
  | prn a ha => exact execPrn_ok s ha
  | pushFloor a ha hs => exact execPush_floor ha hs
  | pushStore a ha hs => exact execPush_store ha hs
  | pop a ha => exact execPop_ok s ha
  | add oc spc a b ha hb => exact execAdd_ok oc spc s ha hb
  | mul oc spc a b ha hb => exact execMul_ok oc spc s ha hb

theorem popIncrement_withFl (s : State) (f : Byte) :
    popIncrement { s with fl := f } = { popIncrement s with fl := f } := by
  rw [popIncrement_eq, popIncrement_eq]; rfl

/-- An effect computes nothing from `FL`: with another `FL` it is the same up to that `FL`. -/
theorem Effect.withFl {s t : State} {i : Instr} (h : Effect s i t) (f : Byte) :
    Effect { s with fl := f } i { t with fl := f } := by
  cases h with
  | hlt oc => exact .hlt oc
  | ldi a imm ha => exact .ldi a imm ha
  | prn a ha => exact .prn a ha
  | pushFloor a ha hs => exact .pushFloor a ha hs
  | pushStore a ha hs => exact .pushStore a ha hs
  | pop a ha =>
    change Effect _ _ (advance .one false
      { popIncrement (s.setReg ⟨a.toNat, ha⟩ (s.byteAt s.sp.toNat)) with fl := f })
    rw [← popIncrement_withFl]
    exact .pop a ha
  | add oc spc a b ha hb => exact .add oc spc a b ha hb
  | mul oc spc a b ha hb => exact .mul oc spc a b ha hb

/-- Executing an instruction with another `FL` gives the same next state up to that `FL`. -/
theorem exec_withFl {s t : State} {i : Instr} (h : exec i s = .next t) (f : Byte) :
    exec i { s with fl := f } = .next { t with fl := f } := by
  rcases exec_cases i s with ⟨hbad, hx⟩ | ⟨-, u, hx, hu⟩
  · obtain rfl := Host.Outcome.next.inj (h.symm.trans hx)
    exact exec_of_bad_register i _ hbad
  · obtain rfl := Host.Outcome.next.inj (h.symm.trans hx)
    exact (hu.withFl f).exec_eq

/-- A step with another `FL` gives the same next state up to that `FL`. -/
theorem step_withFl {s t : State} (h : step s = .next t) (f : Byte) :
    step { s with fl := f } = .next { t with fl := f } := by
  rcases step_cases s with ⟨hr, hx⟩ | ⟨hr, ⟨e, hf, hx⟩ | ⟨i, hf, hx⟩⟩
  · obtain rfl := Host.Outcome.next.inj (h.symm.trans hx)
    exact step_halted hr
  · obtain rfl := Host.Outcome.next.inj (h.symm.trans hx)
    exact step_of_fetch_error rfl rfl hr hf
  · rw [step_of_fetch_ok (s' := { s with fl := f }) rfl rfl hr hf]
    exact exec_withFl (hx.symm.trans h) f

theorem step_fl_eq {s t : State} (h : step s = .next t) : t.fl = s.fl := by
  rcases step_next h with ⟨-, rfl⟩ | ⟨-, ⟨e, rfl⟩ | ⟨i, -, he⟩⟩
  · rfl
  · exact raise_fl e s
  · exact he.fl_eq

/-- Settles O39: the fetch, the fatal errors and the effects neither write `FL` nor depend on it. -/
theorem flagsRegisterIsInert : Obligations.FlagsRegisterIsInert := fun _ _ f h =>
  ⟨step_fl_eq h, step_withFl h f⟩

end Sys2Proof.Machine
end

section
/-! The statements about LDI: what it leaves, the byte 0x82 as a step meets it, and LDI followed by PRN. -/

namespace Sys2Proof.Machine

/-! ### LDI (rule R151) -/

theorem exec_ldi (a imm : Byte) (s : State) : exec (.ldi a imm) s = execLdi a imm s := rfl

/-- Settles O18: LDI's effect is the register write and the move of the program counter. -/
theorem ldiLoadsTheImmediate : Obligations.LdiLoadsTheImmediate := by
  intro a imm s ha _
  rw [exec_ldi, execLdi_ok imm s ha, advance_setReg_eq]
  rfl

/-- The byte 0x82 with both operand bytes in memory is an LDI of these two bytes. -/
theorem step_of_opcode_ldi {s : State} (hr : s.run = .running) (hop : s.opcode = 0x82)
    (hpc : s.pc.toNat < 254) :
    step s = exec (.ldi (s.byteAt (s.pc.toNat + 1)) (s.byteAt (s.pc.toNat + 2))) s := by
  have htop : s.pc.toNat + 3 ≤ 256 := by omega
  refine stepRunsTheInstructionEncodedInMemory s _ hr htop fun k hk => ?_
  match k, hk with
  | 0, _ => exact hop
  | 1, _ => rfl
  | 2, _ => rfl

/-- Settles O19: by whether the operand bytes lie in memory, then by whether the first one is a register
index. -/
theorem ldiByteLoadsOrRaises : Obligations.LdiByteLoadsOrRaises := by
  intro s hr hop
  by_cases hpc : s.pc.toNat < 254
  · rw [step_of_opcode_ldi hr hop hpc]
    by_cases ha : (s.byteAt (s.pc.toNat + 1)).toNat < 8
    · rw [dif_pos ⟨hpc, ha⟩]
      exact ldiLoadsTheImmediate _ _ s ha (Nat.le_of_lt_succ hpc)
    · rw [dif_neg fun h => ha h.2]
      exact exec_of_bad_register _ s ⟨_, List.mem_singleton_self _, ha⟩
  · rw [dif_neg fun h => hpc h.1]
    have hd : decodeOpcode s.opcode = .ok .ldi := (decodeOpcode_ok_iff _ _).2 hop
    exact operandFetchPastTheTopRaisesOutOfBounds s .ldi hr hd
      (Nat.add_le_add_right (Nat.not_lt.1 hpc) 2)

/-! ### LDI, then PRN (rules R151 and R152) -/

theorem pcForward_toNat_of_lt {pc : Byte} {n : Nat} (h : pc.toNat + n < 256) :
    (pcForward pc n).toNat = pc.toNat + n :=
  (pcForward_cases pc n).elim And.right fun ⟨hge, _⟩ => absurd h hge.not_gt

/-- Two moves of the program counter are one, unless the first one wraps. -/
theorem pcForward_pcForward {pc : Byte} {m : Nat} (n : Nat) (h : pc.toNat + m < 256) :
    pcForward (pcForward pc m) n = pcForward pc (m + n) := by
  rw [pcForward, pcForward_toNat_of_lt h, Nat.add_assoc, ← pcForward]

/-- Settles O21: PRN reads the register LDI wrote, at a program counter LDI has not wrapped. -/
theorem ldiThenPrnOutputsTheImmediate : Obligations.LdiThenPrnOutputsTheImmediate := by
  intro a imm s ha hpc
  have h3 : s.pc.toNat + 3 < 256 := by omega
  have hprn : (pcForward s.pc 3).toNat ≤ 254 := by rw [pcForward_toNat_of_lt h3]; omega
  refine ⟨_, _, ldiLoadsTheImmediate a imm s ha (by omega), prnEmitsTheRegister a _ ha hprn, ?_, ?_⟩
  · simp only [Vector.getElem_set_self]
  · exact pcForward_pcForward 2 h3

end Sys2Proof.Machine
end

section
/-! The statements about the stack as a whole: a POP after a PUSH, and the range of the stack pointer. -/

namespace Sys2Proof.Machine

/-! ### PUSH, then POP (rule R163) -/

/-- PUSH away from the floor, as the stack sees it: the pointer, the byte it then points at, and `DIAG`. -/
theorem execPush_stack {a : Byte} {s t : State} (ha : a.toNat < 8) (hs : s.reg 7 ≠ 0)
    (h : execPush a s = .next t) :
    t.reg 7 = s.reg 7 - 1 ∧
      t.byteAt (s.reg 7 - 1).toNat = (if a = 7 then s.reg 7 - 1 else s.reg ⟨a.toNat, ha⟩) ∧
      t.diag = s.diag := by
  have hptr : pushPointer s.sp = s.reg 7 - 1 := pushPointer_eq_sub_one hs
  have hbyte := byteAt_execPush ha hs h
  rw [reg_setReg_pushPointer ha hs, hptr] at hbyte
  obtain rfl := Host.Outcome.next.inj (h.symm.trans (execPush_store ha hs))
  exact ⟨((s.reg_setReg 7 7 _).trans (if_pos rfl)).trans hptr, hbyte, rfl⟩

/-- A valid register operand other than the byte 7 is another index than the stack pointer's. -/
theorem index_ne_seven {a : Byte} (ha : a.toNat < 8) (h7 : a ≠ 7) : (⟨a.toNat, ha⟩ : Fin 8) ≠ 7 :=
  fun h => h7 ((seven_eq_index_iff ha).1 h.symm)

/-- Writing a register other than 7 leaves the stack pointer. -/
theorem sp_setReg_of_ne {a : Byte} (s : State) (ha : a.toNat < 8) (v : Byte) (h7 : a ≠ 7) :
    (s.setReg ⟨a.toNat, ha⟩ v).sp = s.reg 7 :=
  (sp_setReg s ha v).trans (if_neg h7)

/-- POP into a register other than 7, as the stack sees it: the register gets the byte at the pointer, the
pointer is incremented as it stood, and every byte stays. -/
theorem execPop_stack {a : Byte} (s : State) (ha : a.toNat < 8) (h7 : a ≠ 7) :
    ∃ t, execPop a s = .next t ∧ t.reg ⟨a.toNat, ha⟩ = s.byteAt (s.reg 7).toNat ∧
      t.reg 7 = popPointer (s.reg 7) ∧
      t.diag = s.diag ++ (if 0xF4 ≤ (s.reg 7).toNat then [.stackUnderflow] else []) ∧
      ∀ x, t.byteAt x = s.byteAt x := by
  have hsp := sp_setReg_of_ne s ha (s.byteAt s.sp.toNat) h7
  refine ⟨_, execPop_ok s ha, ?_, ?_, ?_, fun x => ?_⟩
  · rw [advance_reg, popIncrement_reg, if_neg (index_ne_seven ha h7).symm, State.reg_setReg, if_pos rfl,
      s.sp_eq]
  · rw [advance_reg, popIncrement_reg, if_pos rfl, hsp]
  · rw [advance_diag, popIncrement_diag, hsp, State.setReg_diag]
  · simp [State.byteAt]

/-- Settles O30: PUSH leaves its value at the pointer minus 1, POP reads it there and adds 1 to the pointer,
which is then below the bound. -/
theorem pushThenPopRoundTrips : Obligations.PushThenPopRoundTrips := by
  intro x y s t u hx hy hy7 hlow hhigh hpush hsp hcell
  have hs : s.reg 7 ≠ 0 := fun h0 => by simp [h0] at hlow
  have hptr : (s.reg 7 - 1).toNat = (s.reg 7).toNat - 1 := by
    rw [← pushPointer_eq_sub_one hs, pushPointer_toNat]
  obtain ⟨htsp, htcell, htdiag⟩ := execPush_stack hx hs hpush
  rw [htsp] at hsp
  rw [htsp, htcell] at hcell
  obtain ⟨w, hw, hwy, hwsp, hwdiag, hwmem⟩ := execPop_stack u hy hy7
  have hbelow : ¬0xF4 ≤ (s.reg 7 - 1).toNat := by omega
  rw [hsp] at hwy hwsp hwdiag
  rw [if_neg hbelow, List.append_nil] at hwdiag
  rw [popPointer_eq_add_one hbelow, BitVec.sub_add_cancel] at hwsp
  refine ⟨htdiag, w, hw, hwy.trans hcell, hwsp, hwdiag, ?_⟩
  rw [← hptr, hwmem, hcell]

/-! ### The range of the stack pointer (rule R164) -/

theorem stackPointerInRange_iff (s : State) : StackPointerInRange s ↔ (s.reg 7).toNat ≤ 0xF4 := Iff.rfl

/-- POP's pointer is in range whatever it was before (decision D14). -/
theorem popPointer_toNat_le (sp : Byte) : (popPointer sp).toNat ≤ 0xF4 := by
  rw [popPointer_toNat]
  split <;> omega

/-- What an effect does to the stack pointer when its instruction does not name register 7 as its
destination: only PUSH and POP move it. -/
theorem Effect.sp_cases {s t : State} {i : Instr} (h : Effect s i t) (hi : destination i ≠ some 7) :
    t.reg 7 = s.reg 7 ∨ ((∃ a, i = .push a) ∧ t.reg 7 = pushPointer (s.reg 7)) ∨
      ((∃ a, i = .pop a) ∧ t.reg 7 = popPointer (s.reg 7)) := by
  cases h with
  | hlt oc => exact .inl rfl
  | ldi a imm ha => exact .inl (sp_setReg_of_ne s ha _ (mt (congrArg some) hi))
  | prn a ha => exact .inl rfl
  | pushFloor a ha hs => exact .inl rfl
  | pushStore a ha hs => exact .inr (.inl ⟨⟨a, rfl⟩, (s.reg_setReg 7 7 _).trans (if_pos rfl)⟩)
  | pop a ha =>
    refine .inr (.inr ⟨⟨a, rfl⟩, ?_⟩)
    rw [advance_reg, popIncrement_reg, if_pos rfl, sp_setReg_of_ne s ha _ (mt (congrArg some) hi)]
  | add oc spc a b ha hb => exact .inl (sp_setReg_of_ne s ha _ (mt (congrArg some) hi))
  | mul oc spc a b ha hb => exact .inl (sp_setReg_of_ne s ha _ (mt (congrArg some) hi))

/-- An effect whose instruction does not name register 7 as its destination keeps the range. -/
theorem StackPointerInRange.effect {s t : State} {i : Instr} (hs : StackPointerInRange s)
    (he : Effect s i t) (hi : destination i ≠ some 7) : StackPointerInRange t := by
  rw [stackPointerInRange_iff] at hs ⊢
  rcases he.sp_cases hi with h | ⟨-, h⟩ | ⟨-, h⟩
  · rwa [h]
  · rw [h, pushPointer_toNat]; omega
  · rw [h]; exact popPointer_toNat_le _

/-- Settles O31: PUSH only lowers the pointer, and POP's own pointer is in range from everywhere. -/
theorem stackPointerStaysInRange : Obligations.StackPointerStaysInRange := by
  refine ⟨fun s t hs h hi => ?_, fun a s t ha h7 h => ?_⟩
  · rcases step_next h with ⟨-, rfl⟩ | ⟨-, ⟨e, rfl⟩ | ⟨i, hf, he⟩⟩
    · exact hs
    · exact hs
    · exact hs.effect he (hi i ((fetch_ok_iff s i).1 hf))
  · obtain ⟨u, hu, -, hsp, -⟩ := execPop_stack s ha h7
    obtain rfl := Host.Outcome.next.inj (h.symm.trans hu)
    rw [stackPointerInRange_iff, hsp]
    exact popPointer_toNat_le _

end Sys2Proof.Machine
end

section
/-! The statements about the output text: the numeral of a byte, and how the text of a run grows. -/

namespace Sys2Proof.Machine

/-! ### The numeral (rule R173, decision D16) -/

/-- Only the numeral of 0 begins with 0: the first digit of a larger number is the first digit of a tenth
of it. -/
theorem eq_zero_of_head?_toDigits {n : Nat} (h : (Nat.toDigits 10 n).head? = some '0') : n = 0 := by
  induction n using Nat.strongRecOn with
  | _ n ih =>
    by_cases hn : n < 10
    · rw [Nat.toDigits_of_lt_base hn] at h
      exact Nat.digitChar_eq_zero.1 (Option.some.inj h)
    · have hten : 10 ≤ n := Nat.not_lt.1 hn
      rw [Nat.toDigits_of_base_le (by decide) hten, List.head?_append_of_ne_nil _ Nat.toDigits_ne_nil] at h
      have hdiv : n / 10 = 0 := ih (n / 10) (by omega) h
      omega

/-- Settles O50: the numeral's characters are the decimal digits of the byte's value. -/
theorem outputNumeralIsTheUnsignedDecimal : Obligations.OutputNumeralIsTheUnsignedDecimal := by
  intro v
  rw [outputNumeral_toList]
  refine ⟨?digits, Nat.toDigits_ne_nil, fun h => ?zero, ?value⟩
  case digits =>
    exact List.all_eq_true.2 fun c hc => Nat.isDigit_of_mem_toDigits (by decide) (by decide) hc
  case zero => rw [eq_zero_of_head?_toDigits h, Nat.toDigits_zero]
  case value => rw [← Nat.ofDigitChars_eq_foldl, Nat.ofDigitChars_ten_toDigits]

/-! ### The output text of a run (rules R152 and R173) -/

theorem renderOutput_eq_join (vs : List Byte) : renderOutput vs = String.join (vs.map outputLine) := by
  induction vs with
  | nil => rfl
  | cons v vs ih => rw [renderOutput, ih, List.map_cons, String.join_cons]

@[simp] theorem load_out (image : List Byte) (s : State) : (load image s).out = s.out := by
  unfold load
  split <;> rfl

/-- PRN is the only instruction whose effect reaches `OUT`. -/
theorem Effect.out_eq {s t : State} {i : Instr} (h : Effect s i t) (hi : i.opcodeOf ≠ .prn) :
    t.out = s.out := by
  cases h
  case prn a ha => exact absurd rfl hi
  all_goals simp

theorem step_out_eq {s t : State} (h : step s = .next t)
    (hs : s.run = .halted ∨ decodeOpcode s.opcode ≠ .ok .prn) : t.out = s.out := by
  rcases step_next h with ⟨-, rfl⟩ | ⟨hr, ⟨e, rfl⟩ | ⟨i, hf, he⟩⟩
  · rfl
  · exact raise_out e s
  · have hprn : decodeOpcode s.opcode ≠ .ok .prn := hs.resolve_left (by simp [hr])
    rw [decodeOpcode_of_fetch_ok hf] at hprn
    exact he.out_eq (mt (congrArg Except.ok) hprn)

/-- Settles O51: the text is a function of `OUT`, which is empty at launch and which PRN alone extends. -/
theorem outputTextGrowsByOneLinePerPrn : Obligations.OutputTextGrowsByOneLinePerPrn := by
  refine ⟨fun s => renderOutput_eq_join s.out, fun image => ?launch, fun a s ha hpc => ?prn,
    fun s t h hs => State.outputText_congr (step_out_eq h hs)⟩
  case launch => exact congrArg renderOutput (load_out image State.reset)
  case prn => exact ⟨_, prnEmitsTheRegister a s ha hpc, State.outputText_of_out rfl⟩

end Sys2Proof.Machine
end

section
/-! The statements about exceptions: the Halted core, the causes of OutOfBounds, the two stack diagnostics,
and what a step may append to the event streams. -/

namespace Sys2Proof.Machine

/-! ### The Halted core (rules R176 and R199) -/

/-- Settles O11, by induction on the number of steps. -/
theorem haltedIsTerminal : Obligations.HaltedIsTerminal := by
  intro k s hr
  have hstep := step_halted hr
  refine ⟨hstep, ?_⟩
  induction k with
  | zero => rfl
  | succ k ih => exact (run_succ k hstep).trans ih

/-! ### OutOfBounds (rule R192) -/

/-- A range is left at the program counter: the opcode byte decodes, and an operand byte would lie past the
top of memory (decision D10) or a register operand is above 7 (decision D25). -/
def RangeLeft (s : State) : Prop :=
  ∃ op, decodeOpcode s.opcode = .ok op ∧
    (256 ≤ s.pc.toNat + op.operandBytes ∨
      ∃ i, decode (bytesAt s.mem s.pc.toNat) = .ok i ∧ ∃ a ∈ i.registerOperands, 8 ≤ a.toNat)

theorem step_of_rangeLeft {s : State} (hr : s.run = .running) (h : RangeLeft s) :
    step s = .next (raise .outOfBounds s) := by
  obtain ⟨op, hd, htop | ⟨i, hi, a, ha, hbad⟩⟩ := h
  · exact operandFetchPastTheTopRaisesOutOfBounds s op hr hd htop
  · rw [stepRunsTheDecodedInstruction s i hr hi]
    exact exec_of_bad_register i s ⟨a, ha, Nat.not_lt.2 hbad⟩

/-- No other step leaves OutOfBounds: an opcode byte that does not decode raises UnsupportedOpcode, and an
instruction with valid register operands leaves `ERR`. -/
theorem rangeLeft_of_step {s t : State} (hr : s.run = .running) (hs : s.err = none)
    (h : step s = .next t) (ht : t.err = some .outOfBounds) : RangeLeft s := by
  rcases fetch_cases s with ⟨e, -, hf⟩ | ⟨op, hd, ⟨htop, -⟩ | ⟨-, i, rfl, hf⟩⟩
  · obtain rfl := Host.Outcome.next.inj (h.symm.trans (step_of_fetch_error rfl rfl hr hf))
    cases ht
  · exact ⟨op, hd, .inl htop⟩
  · refine ⟨i.opcodeOf, hd, .inr ⟨i, (fetch_ok_iff s i).1 hf, ?_⟩⟩
    by_contra! hvalid
    have he := effect_of_exec hvalid ((step_of_fetch_ok rfl rfl hr hf).symm.trans h)
    cases ht.symm.trans (he.err_eq.trans hs)

/-- An image longer than memory fails and writes nothing (decision D20). -/
theorem load_of_too_long {image : List Byte} (s : State) (h : 256 < image.length) :
    load image s = raise .outOfBounds s :=
  if_neg (Nat.not_le.2 h)

/-- Settles O15: a step leaves OutOfBounds exactly where `RangeLeft`, and there it only takes the error. -/
theorem outOfBoundsExactlyWhenARangeIsLeft : Obligations.OutOfBoundsExactlyWhenARangeIsLeft := by
  refine ⟨fun s t hr hs h => ?_, fun image s => load_of_too_long s⟩
  have hraise (hrange : RangeLeft s) : t = raise .outOfBounds s :=
    Host.Outcome.next.inj (h.symm.trans (step_of_rangeLeft hr hrange))
  have hrange := rangeLeft_of_step hr hs h
  exact ⟨⟨hrange, fun hl => congrArg State.err (hraise hl)⟩, fun ht => hraise (hrange ht)⟩

/-! ### The stack diagnostics (rules R193 and R194) -/

/-- Settles O27: PUSH's effect at the floor is the diagnostic and the move of the program counter. -/
theorem pushAtTheFloorOnlyReports : Obligations.PushAtTheFloorOnlyReports := by
  intro a s ha _ hs
  rw [exec_push, execPush_floor ha hs, advance_eq]
  rfl

/-- From the bound on POP's pointer is the bound. -/
theorem popPointer_eq_bound {sp : Byte} (h : 0xF4 ≤ sp.toNat) : popPointer sp = 0xF4 := by
  apply BitVec.eq_of_toNat_eq
  rw [popPointer_toNat, if_pos h]
  rfl

/-- Settles O29: past the bound POP's pointer is 0xF4 and it reports. -/
theorem popPastTheBoundResetsTheStackPointer : Obligations.PopPastTheBoundResetsTheStackPointer := by
  intro a s ha _ hbound
  have hhigh := Nat.le_of_lt_succ hbound
  rw [exec_pop, execPop_eq s ha rfl, popPointer_eq_bound hhigh, if_pos hhigh]

/-! ### The event streams (rule R30) -/

/-- The state with other contents of the two event streams. -/
abbrev State.withStreams (s : State) (o : List Byte) (d : List Diagnostic) : State :=
  { s with out := o, diag := d }

/-- What a step from `s` may append to `OUT` and to `DIAG`, by its opcode byte. -/
inductive Emits (s : State) : List Byte → List Diagnostic → Prop where
  | nothing : Emits s [] []
  | prn (v : Byte) (hd : decodeOpcode s.opcode = .ok .prn) : Emits s [v] []
  | overflow (hd : decodeOpcode s.opcode = .ok .push) (hs : s.reg 7 = 0) : Emits s [] [.stackOverflow]
  | underflow (hd : decodeOpcode s.opcode = .ok .pop) : Emits s [] [.stackUnderflow]

section
variable {s : State} {eo : List Byte} {ed : List Diagnostic}

/-- What POP appends: the diagnostic or nothing, by the bound. -/
theorem Emits.pop (hd : decodeOpcode s.opcode = .ok .pop) (sp : Byte) :
    Emits s [] (if 0xF4 ≤ sp.toNat then [.stackUnderflow] else []) := by
  split
  · exact .underflow hd
  · exact .nothing

theorem Emits.length_le (h : Emits s eo ed) : eo.length + ed.length ≤ 1 := by
  cases h <;> simp

theorem Emits.prn_of_out (h : Emits s eo ed) (hout : eo ≠ []) : decodeOpcode s.opcode = .ok .prn := by
  cases h with
  | prn v hd => exact hd
  | nothing | overflow | underflow => exact absurd rfl hout

theorem Emits.push_of_overflow (h : Emits s eo ed) (hover : .stackOverflow ∈ ed) :
    decodeOpcode s.opcode = .ok .push ∧ s.reg 7 = 0 := by
  cases h with
  | overflow hd hs => exact ⟨hd, hs⟩
  | nothing | prn | underflow => simp at hover

theorem Emits.pop_of_underflow (h : Emits s eo ed) (hunder : .stackUnderflow ∈ ed) :
    decodeOpcode s.opcode = .ok .pop := by
  cases h with
  | underflow hd => exact hd
  | nothing | prn | overflow => simp at hunder

end

/-- The transition `R` from `s` to `t` only appends to the streams and does not read them: with any other
contents it appends the same events and gives the same state otherwise. -/
def AppendsOnly (R : State → State → Prop) (s t : State) : Prop :=
  ∃ eo ed, Emits s eo ed ∧ ∀ o d, R (s.withStreams o d) (t.withStreams (o ++ eo) (d ++ ed))

theorem AppendsOnly.of_nothing {R : State → State → Prop} {s t : State}
    (h : ∀ o d, R (s.withStreams o d) (t.withStreams o d)) : AppendsOnly R s t :=
  ⟨[], [], .nothing, fun o d => by simpa only [List.append_nil] using h o d⟩

theorem popIncrement_withStreams (s : State) (o : List Byte) (d : List Diagnostic) :
    popIncrement (s.withStreams o d) = (popIncrement s).withStreams o
      (d ++ (if 0xF4 ≤ s.sp.toNat then [.stackUnderflow] else [])) := by
  rw [popIncrement_eq, popIncrement_eq]; rfl

/-- PRN, PUSH at the floor and POP past the bound append one event each, every other effect none. -/
theorem Effect.appendsOnly {s t : State} {i : Instr} (h : Effect s i t)
    (hd : decodeOpcode s.opcode = .ok i.opcodeOf) : AppendsOnly (Effect · i ·) s t := by
  cases h with
  | hlt oc => exact .of_nothing fun _ _ => .hlt oc
  | ldi a imm ha => exact .of_nothing fun _ _ => .ldi a imm ha
  | prn a ha =>
    refine ⟨_, [], .prn (s.reg ⟨a.toNat, ha⟩) hd, fun o d => ?_⟩
    rw [List.append_nil]
    exact .prn a ha
  | pushFloor a ha hs =>
    refine ⟨[], _, .overflow hd hs, fun o d => ?_⟩
    rw [List.append_nil]
    exact .pushFloor a ha hs
  | pushStore a ha hs => exact .of_nothing fun _ _ => .pushStore a ha hs
  | pop a ha =>
    refine ⟨[], _, .pop hd (s.setReg ⟨a.toNat, ha⟩ (s.byteAt s.sp.toNat)).sp, fun o d => ?_⟩
    rw [List.append_nil]
    change Effect _ _ (advance .one false
      ((popIncrement (s.setReg ⟨a.toNat, ha⟩ (s.byteAt s.sp.toNat))).withStreams o (d ++ _)))
    rw [← popIncrement_withStreams]
    exact .pop a ha
  | add oc spc a b ha hb => exact .of_nothing fun _ _ => .add oc spc a b ha hb
  | mul oc spc a b ha hb => exact .of_nothing fun _ _ => .mul oc spc a b ha hb

/-- A Halted core and a fatal error append nothing, and an effect what `Effect.appendsOnly` says. -/
theorem step_appendsOnly {s t : State} (h : step s = .next t) :
    AppendsOnly (step · = .next ·) s t := by
  rcases step_cases s with ⟨hr, hx⟩ | ⟨hr, ⟨e, hf, hx⟩ | ⟨i, hf, hx⟩⟩
  · obtain rfl := Host.Outcome.next.inj (h.symm.trans hx)
    exact .of_nothing fun _ _ => step_halted hr
  · obtain rfl := Host.Outcome.next.inj (h.symm.trans hx)
    exact .of_nothing fun _ _ => step_of_fetch_error rfl rfl hr hf
  · have hstep (o d) : step (s.withStreams o d) = exec i (s.withStreams o d) :=
      step_of_fetch_ok rfl rfl hr hf
    rcases exec_cases i s with ⟨hbad, hraise⟩ | ⟨hv, -⟩
    · obtain rfl := Host.Outcome.next.inj (h.symm.trans (hx.trans hraise))
      exact .of_nothing fun o d => (hstep o d).trans (exec_of_bad_register i _ hbad)
    · have he := effect_of_exec hv (hx.symm.trans h)
      obtain ⟨eo, ed, hemits, hstreams⟩ := he.appendsOnly (decodeOpcode_of_fetch_ok hf)
      exact ⟨eo, ed, hemits, fun o d => (hstep o d).trans (hstreams o d).exec_eq⟩

/-- A step that raises a fatal error leaves both streams (rule R196). -/
theorem streams_eq_of_err_ne {s t : State} (h : step s = .next t) (herr : t.err ≠ s.err) :
    t.out = s.out ∧ t.diag = s.diag := by
  rcases step_next h with ⟨-, rfl⟩ | ⟨-, ⟨e, rfl⟩ | ⟨i, -, he⟩⟩
  · exact ⟨rfl, rfl⟩
  · exact ⟨rfl, rfl⟩
  · exact absurd he.err_eq herr

/-- Settles O40: the events are those of `step_appendsOnly`, taken with the streams as they are. -/
theorem streamsAreAppendOnlyAndUnread : Obligations.StreamsAreAppendOnlyAndUnread := by
  intro s t o d h
  obtain ⟨eo, ed, hemits, hstreams⟩ := step_appendsOnly h
  have ht : t = t.withStreams (s.out ++ eo) (s.diag ++ ed) :=
    Host.Outcome.next.inj (h.symm.trans (hstreams s.out s.diag))
  have hout : t.out = s.out ++ eo := congrArg State.out ht
  have hdiag : t.diag = s.diag ++ ed := congrArg State.diag ht
  have hfatal (herr : t.err ≠ s.err) : eo = [] ∧ ed = [] := by
    obtain ⟨ho, hd⟩ := streams_eq_of_err_ne h herr
    exact ⟨List.append_right_eq_self.1 (hout.symm.trans ho),
      List.append_right_eq_self.1 (hdiag.symm.trans hd)⟩
  exact ⟨eo, ed, hout, hdiag, hemits.length_le, hfatal, hemits.prn_of_out, hemits.push_of_overflow,
    hemits.pop_of_underflow, hstreams o d⟩

end Sys2Proof.Machine
end

section
/-! The statement about the load interface: what a load writes and what it leaves. -/

namespace Sys2Proof.Machine

section
variable {image : List Byte} (s : State)

/-- A load that fits is `placeBytes` from address 0 (rule R172). -/
theorem load_of_fits (h : image.length ≤ 256) :
    load image s = { s with mem := placeBytes s.mem 0 image } :=
  if_pos h

/-- A load that fits gives the image's bytes from address 0 up and leaves every byte above them. The bound
of memory in `lookup_placeBytes` shuts no byte of such an image out. -/
theorem byteAt_load (h : image.length ≤ 256) (x : Nat) :
    (load image s).byteAt x = if h : x < image.length then image[x] else s.byteAt x := by
  have hrange : (0 ≤ x ∧ x < 0 + image.length ∧ x < Config.memSize) ↔ x < image.length := by
    simp only [Config.memSize]
    omega
  rw [load_of_fits s h]
  exact (lookup_placeBytes s.mem 0 image x).trans (by simp only [hrange, Nat.sub_zero]; rfl)

end

/-- Settles O45: an image that fits is read back by `byteAt_load` and only memory is written; a longer one
takes the fatal error. -/
theorem loadPlacesTheImage : Obligations.LoadPlacesTheImage :=
  ⟨fun _ s h => ⟨byteAt_load s h, by rw [load_of_fits s h]⟩, fun _ s h => load_of_too_long s h⟩

end Sys2Proof.Machine
end

section
/-! The statements about a step's outcomes: the three ways a running core goes on, the cause of
UnsupportedOpcode, what the register operands decide, and HLT. -/

namespace Sys2Proof.Machine

/-! ### The outcomes of a step (rules R9 and R197) -/

/-- Settles O12: a fatal error is `raise`, HLT's effect is `halt`, and every other effect leaves `RUN`. -/
theorem stepHasThreeOutcomes : Obligations.StepHasThreeOutcomes := by
  intro s hr
  obtain ⟨t, h⟩ := step_total s
  refine ⟨t, h, ?_⟩
  rcases step_next h with ⟨hh, -⟩ | ⟨-, ⟨e, rfl⟩ | ⟨i, hf, he⟩⟩
  · cases hr.symm.trans hh
  · exact .inr (.inr ⟨e, rfl⟩)
  · rcases he.run_cases with ⟨⟨oc, rfl⟩, rfl⟩ | hrun
    · exact .inr (.inl ⟨⟨oc, decodeOpcode_of_fetch_ok hf⟩, rfl⟩)
    · exact .inl ⟨hrun.trans hr, he.err_eq⟩

/-! ### UnsupportedOpcode (rule R191) -/

/-- Where the opcode byte decodes, a step's only fatal error is OutOfBounds. -/
theorem step_next_of_decodeOpcode_ok {s t : State} {op : Opcode} (hr : s.run = .running)
    (hd : decodeOpcode s.opcode = .ok op) (h : step s = .next t) :
    t = raise .outOfBounds s ∨ t.err = s.err := by
  rcases fetch_cases s with ⟨e, he, -⟩ | ⟨-, -, ⟨-, hf⟩ | ⟨-, i, -, hf⟩⟩
  · cases hd.symm.trans he
  · exact .inl (Host.Outcome.next.inj (h.symm.trans (step_of_fetch_error rfl rfl hr hf)))
  · exact (exec_next ((step_of_fetch_ok rfl rfl hr hf).symm.trans h)).imp_right Effect.err_eq

/-- Settles O14: outside the grid the step takes UnsupportedOpcode, and inside it
`step_next_of_decodeOpcode_ok` leaves no way to it. -/
theorem unsupportedOpcodeExactlyOutsideTheGrid :
    Obligations.UnsupportedOpcodeExactlyOutsideTheGrid := by
  intro s t hr hs h
  have hraise (hout : ∀ op, (s.opcode, op) ∉ opcodeGrid) : t = raise .unsupportedOpcode s :=
    Host.Outcome.next.inj (h.symm.trans (step_of_not_mem_opcodeGrid hr hout))
  have hout (ht : t.err = some .unsupportedOpcode) : ∀ op, (s.opcode, op) ∉ opcodeGrid := by
    intro op hrow
    rcases step_next_of_decodeOpcode_ok hr ((opcodeMapIsTheGrid _ op).2 hrow) h with rfl | herr
    · cases ht
    · cases ht.symm.trans (herr.trans hs)
  exact ⟨⟨hout, fun ho => congrArg State.err (hraise ho)⟩, fun ht => hraise (hout ht)⟩

/-! ### The register operands (rules R23, R83 and R196) -/

/-- Settles O33: a bad register operand raises before the instruction's effect, and no effect touches
`ERR`. -/
theorem registerIndexDecidesOutOfBounds : Obligations.RegisterIndexDecidesOutOfBounds := by
  refine fun i s => ⟨fun ⟨a, ha, hbad⟩ => ?_, fun hv => ?_⟩
  · exact exec_of_bad_register i s ⟨a, ha, Nat.not_lt.2 hbad⟩
  · obtain ⟨t, h⟩ := exec_total i s
    exact ⟨t, h, (effect_of_exec hv h).err_eq⟩

/-! ### HLT (rule R117) -/

/-- Settles O16: HLT's meaning is `halt`, whatever the operand count. -/
theorem hltSetsRunToHalted : Obligations.HltSetsRunToHalted := execHlt_eq

end Sys2Proof.Machine
end

section
/-! The statements about the ALU's arithmetic, and the reset state. -/

namespace Sys2Proof.Machine

/-! ### Arithmetic without sign (rule R143, decision D1) -/

/-- Narrowing is the cast to a byte, which reduces modulo 256 itself. -/
theorem narrow_eq_ofNat (n : Nat) : narrow n = BitVec.ofNat 8 n :=
  BitVec.eq_of_toNat_eq (by simp [narrow, Config.xlen])

/-- ADD's result is the sum of bytes, which knows no sign. -/
theorem addResult_eq_add (x y : Byte) : addResult x y = x + y := by
  simp only [addResult, narrow_eq_ofNat, BitVec.ofNat_add, BitVec.ofNat_toNat, BitVec.setWidth_eq]

/-- MUL's result is the product of bytes, which knows no sign. -/
theorem mulResult_eq_mul (x y : Byte) : mulResult x y = x * y := by
  simp only [mulResult, narrow_eq_ofNat, BitVec.ofNat_mul, BitVec.ofNat_toNat, BitVec.setWidth_eq]

/-- Settles O24: sum and product of bytes commute with the cast from the integers, for the signed as for
the unsigned value. -/
theorem arithmeticHasNoSign : Obligations.ArithmeticHasNoSign := by
  intro x y
  rw [addResult_eq_add, mulResult_eq_mul]
  refine ⟨?_, ?_, fun h => BitVec.toNat_add_of_lt h, fun h => BitVec.toNat_mul_of_lt h⟩
  · rw [BitVec.ofInt_add, BitVec.ofInt_toInt, BitVec.ofInt_toInt]
  · rw [BitVec.ofInt_mul, BitVec.ofInt_toInt, BitVec.ofInt_toInt]

/-! ### Reset (rules R33 and R220) -/

/-- The register file after reset: `STACK_START` in register 7, 0 in the others (decision D4). -/
theorem reg_reset (r : Fin 8) : State.reset.reg r = if r = 7 then 0xF4 else 0 := by
  decide +revert

/-- Settles O44: memory lists no cell, and every other field is the one `State.reset` writes out. -/
theorem resetLeavesTheTable : Obligations.ResetLeavesTheTable :=
  ⟨fun x => Memory.lookup_nil x, reg_reset, rfl, rfl, rfl, rfl, rfl, rfl⟩

end Sys2Proof.Machine
end
